-- ==== Sys2Proof/Word.lean ====
section
/-! DEFINITION. The words of the block: bytes, the two cursors, and the operand fields of a token.
Every value is unsigned (spec/00_scope.md R10); arithmetic is done on natural numbers and narrowed
where a register is written (R11). -/

namespace Sys2Proof

/-- A byte, `b[7:0]` (00_scope.md R10). -/
abbrev Byte := BitVec 8

/-- The width of `IN_CUR` (10_state.md R19, 00_scope.md R9). -/
abbrev InCursor := BitVec 14

/-- The width of `OUT_CUR`, `DLEN` and `RESULT_LEN` (10_state.md R19). -/
abbrev OutCursor := BitVec 16

/-- A symbol table index, six bits (30_encoding.md R63). -/
abbrev SymIndex := BitVec 6

/-- A back-reference offset, twelve bits (00_scope.md R9). -/
abbrev RefOffset := BitVec 12

/-- A back-reference length, five bits (00_scope.md R9). -/
abbrev RefLength := BitVec 5

end Sys2Proof
end

