-- ==== Sys2Proof/Config.lean ====
section
/-! DEFINITION. The constants the source fixes (spec/00_scope.md R7) and the configuration inputs of an
instance (R8): `SYMBOL_TABLE` and `STRICT`. The table is OPEN (92_eei_decisions.md D12): an instance
carries one, and the one `State.reset` carries is made of opaque bytes. -/

namespace Sys2Proof

namespace Config

/-- `MIN_STREAM` (R7; the decimal is 32,769 by 90_conflicts.md C1). -/
abbrev minStream : Nat := 0x8001
/-- `CODE_BASE` (R7). -/
abbrev codeBase : Nat := 0x4300
/-- `CODE_LEN` (R7). -/
abbrev codeLen : Nat := 0x3D00
/-- `VERSION_ADDR` (R7). -/
abbrev versionAddr : Nat := 0x8000
/-- `DLEN_HI`, the code-region byte with the high half of the decompressed length (R7); the low half follows it. -/
abbrev dlenAddr : Nat := 4
/-- `TOKEN_START` (R7). -/
abbrev tokenStart : Nat := 8
/-- `SYM_MAX` (R7). -/
abbrev symMax : Nat := 0x3B
/-- `BREF_BASE` (R7). -/
abbrev brefBase : Nat := 0x3C
/-- The largest back-reference offset a token encodes (30_encoding.md R68). -/
abbrev offsetMax : Nat := 3135
/-- The smallest back-reference length (30_encoding.md R69). -/
abbrev lengthMin : Nat := 2
/-- The largest back-reference length (30_encoding.md R69). -/
abbrev lengthMax : Nat := 17
/-- `VERSIONS_OK` (R7). -/
abbrev versionsOk : List Byte := [0x01, 0x05]

/-- Free bytes: what the symbol table of the instance that starts at `State.reset` holds. No rule of the
spec lists them (91_not_in_source.md N8). DESIGN CHOICE, log entry 1. -/
opaque symbolByte : Nat → Byte

end Config

/-- The configuration inputs of an instance, fixed for its life (00_scope.md R8, 10_state.md R34). -/
structure Params where
  /-- `SYMBOL_TABLE`, 64 bytes (R8). -/
  symbolTable : Vector Byte 64
  /-- `STRICT` (R8). -/
  strict : Bool
  deriving DecidableEq, Repr

/-- The configuration at `State.reset`: an open table that keeps the one undoubted limit of the source, entry 0
equals entry 41 (44_decompressor_tokens.md R99; log entry 2), and the default `STRICT = false` (R8). -/
def Params.default : Params where
  symbolTable := Vector.ofFn fun i => if i.val = 0 then Config.symbolByte 41 else Config.symbolByte i.val
  strict := false

/-- `H_SYM12`: the doubted constraint of §8 item 8, a named hypothesis and not part of the machine
(90_conflicts.md C7, 95_test_vectors.md). -/
abbrev Params.SymbolsZeroOne (p : Params) : Prop :=
  p.symbolTable[1] = 0x30 ∧ p.symbolTable[2] = 0x31

/-- The duplicate of R99: entry 0 equals entry 41. -/
abbrev Params.DuplicateEntry (p : Params) : Prop :=
  p.symbolTable[0] = p.symbolTable[41]

end Sys2Proof
end

