-- ==== Sys2Proof/Syntax.lean ====
section
/-! DEFINITION. The instructions: the tokens of the compressed stream (spec/00_scope.md R3, 30_encoding.md R62).
One constructor per row of spec/opcode_table.json. -/

namespace Sys2Proof

/-- A token. -/
inductive Instr where
  /-- ESC: emits the literal byte `v` (44_decompressor_tokens.md R97). -/
  | esc (v : Byte)
  /-- SYM: emits entry `idx` of the symbol table (R98). -/
  | sym (idx : SymIndex)
  /-- BREF: copies `length` bytes from `offset` positions back (R101). -/
  | bref (offset : RefOffset) (length : RefLength)
  deriving DecidableEq, Repr

end Sys2Proof
end

