-- ==== Sys2Proof/WellFormed.lean ====
section
/-! DEFINITION. Which instruction terms some encoding stands for: the operand ranges of
spec/30_encoding.md R63 (SYM), R68 and R69 (BREF); every ESC is well formed (R64). -/

namespace Sys2Proof

/-- The operand ranges of the tokens (30_encoding.md R63, R68, R69, R74). -/
def Instr.wellFormed : Instr → Bool
  | .esc _ => true
  | .sym idx => decide (1 ≤ idx.toNat ∧ idx.toNat ≤ Config.symMax)
  | .bref offset length =>
    decide (offset.toNat ≤ Config.offsetMax ∧
      Config.lengthMin ≤ length.toNat ∧ length.toNat ≤ Config.lengthMax)

end Sys2Proof
end

