-- ==== Sys2Proof/Decode.lean ====
section
/-! DEFINITION. The decoder of tokens, total on any bytes (spec/30_encoding.md sections 3 to 5), then the
encoder written from the inverse of R70 and the notation of R74. Every control byte is a token
(R71, R73), so only a stream that ends too early is rejected, by name. -/

namespace Sys2Proof

/-- The token kinds (30_encoding.md R62). -/
inductive TokenKind where
  | esc
  | sym
  | bref
  deriving DecidableEq, Repr

/-- The control byte alone selects the token (30_encoding.md R71, 43_decompressor_control.md R90). -/
def tokenKind (c : Byte) : TokenKind :=
  if c.toNat = 0 then .esc
  else if c.toNat ≤ Config.symMax then .sym
  else .bref

/-- The length in bytes of a token of each kind (30_encoding.md R72). -/
def tokenLength : TokenKind → Nat
  | .esc => 2
  | .sym => 1
  | .bref => 2

/-- SYM's operand `idx = c[5:0]` (30_encoding.md R63, R67). -/
def symOperand (c : Byte) : SymIndex := c.extractLsb' 0 6

/-- BREF's `offset = (c − 0x3C) × 16 + (b & 0xF)` (30_encoding.md R68). -/
def brefOffset (c b : Byte) : RefOffset :=
  BitVec.ofNat 12 ((c.toNat - Config.brefBase) * 16 + (b &&& 0xF).toNat)

/-- BREF's `length = (b >> 4) + 2` (30_encoding.md R69). -/
def brefLength (b : Byte) : RefLength :=
  BitVec.ofNat 5 ((b >>> 4).toNat + 2)

/-- Why a list of bytes is no token. -/
inductive DecodeError where
  /-- There is no control byte. -/
  | noControlByte
  /-- A two-byte token has no second byte: the straddle of 43_decompressor_control.md R91. -/
  | noSecondByte
  deriving DecidableEq, Repr

/-- One token off the front of a list of bytes, with the bytes after it (30_encoding.md R71, R72). -/
def decode : List Byte → Except DecodeError (Instr × List Byte)
  | [] => .error .noControlByte
  | c :: rest =>
    match tokenKind c, rest with
    | .sym, rest => .ok (.sym (symOperand c), rest)
    | .esc, v :: rest => .ok (.esc v, rest)
    | .bref, b :: rest => .ok (.bref (brefOffset c b) (brefLength b), rest)
    | .esc, [] => .error .noSecondByte
    | .bref, [] => .error .noSecondByte

/-- The bytes of an instruction, lowest address first (30_encoding.md R70, R74). -/
def encode : Instr → List Byte
  | .esc v => [0x00, v]
  | .sym idx => [BitVec.ofNat 8 idx.toNat]
  | .bref offset length =>
    [BitVec.ofNat 8 (Config.brefBase + offset.toNat >>> 4),
     BitVec.ofNat 8 ((length.toNat - 2) <<< 4 ||| (offset.toNat &&& 0xF))]

/-- The length in bytes of an instruction (30_encoding.md R62, R72). -/
def Instr.byteLength : Instr → Nat
  | .esc _ => 2
  | .sym _ => 1
  | .bref _ _ => 2

/-- A match and mask pair on the control byte, with the token it covers. -/
structure CoverRow where
  kind : TokenKind
  pattern : Byte
  mask : Byte
  deriving DecidableEq, Repr

/-- The row's pattern fits the control byte: `(c & mask) = match` (30_encoding.md R71). -/
def CoverRow.fits (r : CoverRow) (c : Byte) : Bool := c &&& r.mask == r.pattern

/-- The exact covers of 30_encoding.md R71 (and of spec/opcode_table.json). -/
def coverRows : List CoverRow :=
  [⟨.esc, 0x00, 0xFF⟩,
   ⟨.sym, 0x01, 0xFF⟩, ⟨.sym, 0x02, 0xFE⟩, ⟨.sym, 0x04, 0xFC⟩, ⟨.sym, 0x08, 0xF8⟩,
   ⟨.sym, 0x10, 0xF0⟩, ⟨.sym, 0x20, 0xF0⟩, ⟨.sym, 0x30, 0xF8⟩, ⟨.sym, 0x38, 0xFC⟩,
   ⟨.bref, 0x3C, 0xFC⟩, ⟨.bref, 0x40, 0xC0⟩, ⟨.bref, 0x80, 0x80⟩]

/-- The two bytes, in address order, of a table word whose bits above `nbits` are zero: the longest token has
two bytes, and the first byte holds bits 7..0. -/
def tableBytes (nbits w : Nat) : List Byte :=
  let v := w % 2 ^ nbits
  [BitVec.ofNat 8 v, BitVec.ofNat 8 (v / 256)]

/-- What the decoder reads from a word numbered as spec/opcode_table.json numbers it. -/
def decodeTableWord (nbits w : Nat) : Option Instr :=
  match decode (tableBytes nbits w) with
  | .ok (i, _) => some i
  | .error _ => none

end Sys2Proof
end

