-- ==== Sys2Proof/Machine/State.lean ====
section
/-! DEFINITION. The state of the block: every register and memory of spec/10_state.md R19, R29, R30 and
20_memory.md R38, the configuration of the instance, and whose turn it is. The `none` of a register is the spec's own
⊥ ("holds no value", R36), which RESET and START write; it is not a missing reset value (log entry 3). -/

namespace Sys2Proof.Machine

/-- `PHASE` (10_state.md R20). -/
inductive Phase where
  | idle
  | extract
  | split
  | gate
  | decode
  | done
  | truncated
  | error
  deriving DecidableEq, Repr

/-- `ERR` (10_state.md R21, 60_exceptions.md R111). -/
inductive Err where
  | none
  | outOfRange
  | unsupportedVersion
  | badReference
  | truncatedInput
  deriving DecidableEq, Repr

/-- The `value` of `ERR_INFO` (10_state.md R22). -/
inductive ErrValue where
  /-- `FB_LEN`, for OUT_OF_RANGE. -/
  | streamLength (n : Nat)
  /-- The version byte, for UNSUPPORTED_VERSION. -/
  | versionByte (v : Byte)
  /-- The pair of the faulting token, for BAD_REFERENCE. -/
  | reference (offset : RefOffset) (length : RefLength)
  /-- ⊥, for TRUNCATED_INPUT. -/
  | noValue
  deriving DecidableEq, Repr

/-- `ERR_INFO`, what the error saw (10_state.md R22). -/
structure ErrInfo where
  /-- The busy phase that raised the error. -/
  stage : Phase
  /-- `IN_CUR` at the start of the step, or ⊥. -/
  inCur : Option InCursor
  /-- `OUT_CUR` at the start of the step, or ⊥. -/
  outCur : Option OutCursor
  value : ErrValue
  deriving DecidableEq, Repr

/-- A PixelSample: four named 8-bit channels (00_scope.md R14, 10_state.md R34). -/
structure Pixel where
  a : Byte
  r : Byte
  g : Byte
  b : Byte
  deriving DecidableEq, Repr

/-- A host command (10_state.md R34). The grid of START is its samples in row-major order, pixel (x, y) at
`y × W + x` (20_memory.md R39). -/
inductive HostCommand where
  | reset
  | start (w h : Nat) (pix : List Pixel)
  deriving DecidableEq, Repr

/-- Whose turn a step is: the sequencer's, or the host's with the command it issues (10_state.md R16). -/
inductive Turn where
  | sequencer
  | host (cmd : HostCommand)
  deriving DecidableEq, Repr

/-- The registers that can hold ⊥, for the name of a fault. -/
inductive RegName where
  | gridW
  | gridH
  | fbLen
  | version
  | dlen
  | inCur
  | outCur
  deriving DecidableEq, Repr

/-- The state of one instance. -/
structure State where
  /-- `SYMBOL_TABLE` and `STRICT`: configuration inputs, fixed for the life of the instance (R34). -/
  params : Params
  /-- `PHASE` (R20). -/
  phase : Phase
  /-- `ERR` (R21). -/
  err : Err
  /-- `ERR_INFO`, `none` for ⊥ (R22). -/
  errInfo : Option ErrInfo
  /-- `GRID_W` (R19). -/
  gridW : Option Nat
  /-- `GRID_H` (R19). -/
  gridH : Option Nat
  /-- The space `PIX`, row-major (20_memory.md R38, R39). -/
  pix : List Pixel
  /-- `FB_LEN` (R19). -/
  fbLen : Option Nat
  /-- The space `FB`: addresses strictly rising, no cell holds the unlisted byte (R29; log entry 4). -/
  fb : List Host.Cell
  /-- `VERSION` (R26). -/
  version : Option Byte
  /-- `DLEN` (R25). -/
  dlen : Option OutCursor
  /-- `IN_CUR`, the program counter (R23). -/
  inCur : Option InCursor
  /-- `OUT_CUR` (R24). -/
  outCur : Option OutCursor
  /-- The space `OB`: addresses strictly rising; an unlisted position is ⊥ (R30; log entry 5). -/
  ob : List Host.Cell
  /-- `RESULT_LEN` (R27). -/
  resultLen : Option OutCursor
  /-- The MODEL'S own field: the turns to come; when it is empty the turn is the sequencer's (log entry 6). -/
  schedule : List Turn
  deriving DecidableEq, Repr

/-- Why a step stops. None of these is an error of the block: those are next states (60_exceptions.md R118). -/
inductive Fault where
  /-- Raised by `step` on the sequencer's turn in IDLE, DONE, TRUNCATED or ERROR: no step is enabled there
  (45_orchestration.md R107). Safe: the model stops where the block stands still (log entry 7). -/
  | noStepEnabled (phase : Phase)
  /-- Raised by a stage that reads a register holding ⊥; no rule does in a state a run reaches (R36). Safe. -/
  | noValue (r : RegName)
  /-- Raised by EXTRACT when PIX does not hold W × H samples; START never leaves that. Safe. -/
  | pixAddress
  /-- Raised by a read of FB at or above FB_LEN; no stage does in a state a run reaches (20_memory.md R51). Safe. -/
  | fbAddress (a : Nat)
  /-- Raised by a read of CR at or above 0x3D00, never performed (20_memory.md R41). Safe. -/
  | crAddress (a : Nat)
  /-- Raised by a write of OB at or above DLEN, which has no such position (20_memory.md R42). Safe. -/
  | obAddress (a : Nat)
  /-- Raised by a read of a ⊥ position of OB, never performed (20_memory.md R50). Safe. -/
  | obNoValue (a : Nat)
  /-- Raised by a token's meaning outside the precondition of every token rule (44_decompressor_tokens.md, opening);
  the DECODE step never runs a token there. Safe (log entry 12). -/
  | tokenPrecondition
  deriving DecidableEq, Repr

/-- Why a step has no meaning. -/
inductive Refusal where
  /-- Raised by exec's arm of an instruction not modelled yet. Safe. -/
  | notModelled (mnemonic : String)
  /-- Raised by the host's turn with START in a busy phase, which has no meaning in the spec
  (70_reset_and_hazards.md R136). Safe: it assumes nothing of such a host (log entry 8). -/
  | startWhileBusy
  /-- Raised by the host's turn with a START whose list is not W × H samples: no grid at all. Safe (log entry 9). -/
  | malformedGrid
  deriving DecidableEq, Repr

/-- The machine after RESET or power-on (10_state.md R36, 70_reset_and_hazards.md R128). -/
def State.reset : State where
  params := Params.default
  phase := .idle
  err := .none
  errInfo := none
  gridW := none
  gridH := none
  pix := []
  fbLen := none
  fb := []
  version := none
  dlen := none
  inCur := none
  outCur := none
  ob := []
  resultLen := none
  schedule := []

end Sys2Proof.Machine
end

