-- ==== Sys2Proof/Machine/Ops.lean ====
section
/-! DEFINITION. The named operations over memories and registers: sparse memories in one canonical form, the five
address spaces (spec/20_memory.md R38), register reads, error entry (60_exceptions.md R118; there is no return from an
error, R119), the ends of an operation, and the straddle (43_decompressor_control.md R91). -/

namespace Sys2Proof.Machine

/-! ### Sparse memories -/

/-- What FB reads at an address below `FB_LEN` that no cell lists: the byte 0. Every address below `FB_LEN` was written
by EXTRACT, so this only says how a written 0 is held (log entry 4). -/
def fbUnlisted : Option Byte := some 0

/-- What OB reads at a position that no cell lists: ⊥ (10_state.md R30; log entry 5). -/
def obUnlisted : Option Byte := none

/-- The content of address `a`, where an unlisted address holds `dflt`. -/
def Memory.read (dflt : Option Byte) : List Host.Cell → Nat → Option Byte
  | [], _ => dflt
  | (x, v) :: rest, a => if x = a then some v else Memory.read dflt rest a

/-- Put a cell in address order, replacing the cell of the same address. -/
def Memory.insert (a : Nat) (v : Byte) : List Host.Cell → List Host.Cell
  | [] => [(a, v)]
  | (x, w) :: rest =>
    if a < x then (a, v) :: (x, w) :: rest
    else if a = x then (a, v) :: rest
    else (x, w) :: Memory.insert a v rest

/-- Take the cell of an address away. -/
def Memory.erase (a : Nat) (m : List Host.Cell) : List Host.Cell :=
  m.filter fun c => c.1 != a

/-- Write one byte and keep the canonical form: the value an unlisted address reads as is not listed. -/
def Memory.write (dflt : Option Byte) (m : List Host.Cell) (a : Nat) (v : Byte) : List Host.Cell :=
  if some v = dflt then Memory.erase a m else Memory.insert a v m

/-- The canonical form: addresses strictly rising, and no cell holds what an unlisted address reads as. -/
def Memory.wf (dflt : Option Byte) : List Host.Cell → Bool
  | [] => true
  | (x, v) :: rest =>
    decide (some v ≠ dflt) && rest.all (fun c => decide (x < c.1)) && Memory.wf dflt rest

/-- Big-endian combination of bytes, the first the most significant (20_memory.md R44). -/
def bigEndian (bytes : List Byte) : Nat :=
  bytes.foldl (fun n b => n * 256 + b.toNat) 0

/-! ### Registers -/

/-- A read of a register that may hold ⊥ (10_state.md R36: no rule reads ⊥). -/
def readReg {α : Type} (name : RegName) : Option α → Except Fault α
  | some v => .ok v
  | none => .error (.noValue name)

/-- `IN_CUR <- n`, narrowed to its 14 bits (10_state.md R19, R23). -/
def State.setInCur (s : State) (n : Nat) : State :=
  { s with inCur := some (BitVec.ofNat 14 n) }

/-- `OUT_CUR <- n`, narrowed to its 16 bits (10_state.md R19, R24). -/
def State.setOutCur (s : State) (n : Nat) : State :=
  { s with outCur := some (BitVec.ofNat 16 n) }

/-- The turns to come. -/
def State.setSchedule (s : State) (turns : List Turn) : State :=
  { s with schedule := turns }

/-! ### Address spaces -/

/-- `MemRead_FB(a, 1)` (20_memory.md R40, R51). -/
def readFb (s : State) (a : Nat) : Except Fault Byte := do
  let len ← readReg .fbLen s.fbLen
  if a < len then
    match Memory.read fbUnlisted s.fb a with
    | some v => return v
    | none => throw (.fbAddress a)
  else throw (.fbAddress a)

/-- `MemRead_CR(i, 1)`, a view of FB (20_memory.md R41). -/
def readCr (s : State) (i : Nat) : Except Fault Byte :=
  if i < Config.codeLen then readFb s (Config.codeBase + i) else .error (.crAddress i)

/-- `MemRead_CR(i, 2)`, big-endian (20_memory.md R44). -/
def readCrPair (s : State) (i : Nat) : Except Fault OutCursor := do
  let hi ← readCr s i
  let lo ← readCr s (i + 1)
  return BitVec.ofNat 16 (bigEndian [hi, lo])

/-- `MemRead_OB(a, 1)`; a ⊥ position gives no value (20_memory.md R50). -/
def readOb (s : State) (a : Nat) : Except Fault Byte :=
  match Memory.read obUnlisted s.ob a with
  | some v => .ok v
  | none => .error (.obNoValue a)

/-- The memory of OB after one write. -/
def State.setOb (s : State) (a : Nat) (v : Byte) : State :=
  { s with ob := Memory.write obUnlisted s.ob a v }

/-- `MemWrite_OB(a, 1, v)`; OB has `DLEN` positions (20_memory.md R42). -/
def writeOb (s : State) (a : Nat) (v : Byte) : Except Fault State := do
  let d ← readReg .dlen s.dlen
  if a < d.toNat then return s.setOb a v else throw (.obAddress a)

/-- `MemRead_SYM(i, 1)` (20_memory.md R43). -/
def readSym (s : State) (i : SymIndex) : Byte :=
  s.params.symbolTable[i.toNat]'i.isLt

/-! ### Error entry and the ends of an operation -/

/-- `raise E(info)` (60_exceptions.md R118): it writes ERR, ERR_INFO and PHASE and nothing else. `start` is the state at
the start of the step, whose phase and cursors ERR_INFO records (10_state.md R22). -/
def State.raise (s start : State) (e : Err) (info : ErrValue) : State :=
  { s with
    err := e
    errInfo := some ⟨start.phase, start.inCur, start.outCur, info⟩
    phase := .error }

/-- What GATE writes when the version is accepted: DLEN, an OB of `DLEN` positions that all hold ⊥, the cursors at 8 and 0, and
`PHASE <- DECODE` (43_decompressor_control.md R88). -/
def State.openDecode (s : State) (d : OutCursor) : State :=
  { s with
    dlen := some d
    ob := []
    inCur := some (BitVec.ofNat 14 Config.tokenStart)
    outCur := some 0
    phase := .decode }

/-- Entry to DONE: `RESULT_LEN <- DLEN; PHASE <- DONE` (43_decompressor_control.md R89, R92). -/
def State.complete (s : State) : State :=
  { s with resultLen := s.dlen, phase := .done }

/-- Entry to TRUNCATED: `RESULT_LEN <- OUT_CUR; PHASE <- TRUNCATED` (43_decompressor_control.md R93). -/
def State.truncate (s : State) : State :=
  { s with resultLen := s.outCur, phase := .truncated }

/-- `exhaust()` (43_decompressor_control.md R93). -/
def State.exhaust (s : State) : State :=
  if s.params.strict then s.raise s .truncatedInput .noValue else s.truncate

/-- A two-byte token whose second byte lies outside the region writes nothing and spends the input
(43_decompressor_control.md R91; log entry 14). -/
def State.straddle (s : State) : State := s.setInCur Config.codeLen

/-- The outcome of a computation that may stop with a fault. -/
def answer : Except Fault State → Host.Outcome State Fault Refusal
  | .ok s => .next s
  | .error f => .fault f

end Sys2Proof.Machine
end

