-- ==== Sys2Proof/Machine/Control.lean ====
section
/-! DEFINITION. CodeDecompressor control: the GATE step, and what the DECODE step does before a token runs
(spec/43_decompressor_control.md). -/

namespace Sys2Proof.Machine

/-- GATE (43_decompressor_control.md R86, then R88 in the same step): the version check comes before any read of CR
(60_exceptions.md R113); both accepted versions go on alike (R87). -/
def stepGate (s : State) : Except Fault State := do
  let v ← readReg .version s.version
  if v ∈ Config.versionsOk then
    let d ← readCrPair s Config.dlenAddr
    return s.openDecode d
  else
    return s.raise s .unsupportedVersion (.versionByte v)

/-- What one DECODE step is about to do (43_decompressor_control.md R89). -/
inductive LoopMove where
  /-- The output is full: the operation ends in DONE. -/
  | full
  /-- The input is spent: `exhaust()`. -/
  | spent
  /-- The control byte is the region's last and its token needs a second byte (R91). -/
  | straddle
  /-- A token is executed. -/
  | token (i : Instr)
  deriving DecidableEq, Repr

/-- The bytes of the token at `IN_CUR`: its control byte, then its second byte if it has one inside the region. Nothing
else is read (20_memory.md R46, R48; 70_reset_and_hazards.md R134). -/
def fetchBytes (s : State) (at_ : Nat) : Except Fault (List Byte) := do
  let c ← readCr s at_
  if tokenLength (tokenKind c) = 2 ∧ at_ + 1 < Config.codeLen then
    let b ← readCr s (at_ + 1)
    return [c, b]
  else return [c]

/-- The loop tests in their order, output first, then the fetch and dispatch (43_decompressor_control.md R89, R90). -/
def loopMove (s : State) : Except Fault LoopMove := do
  let o ← readReg .outCur s.outCur
  let d ← readReg .dlen s.dlen
  let i ← readReg .inCur s.inCur
  if o.toNat ≥ d.toNat then return .full
  else if i.toNat ≥ Config.codeLen then return .spent
  else
    let bytes ← fetchBytes s i.toNat
    match decode bytes with
    | .ok (instr, _) => return .token instr
    | .error _ => return .straddle

end Sys2Proof.Machine
end

