-- ==== Sys2Proof/Machine/Operands.lean ====
section
/-! DEFINITION. What a token reads before it acts: the precondition of every token rule and the cursors
(spec/44_decompressor_tokens.md, opening), whether it straddles (R91), and BREF's source, guard and clip (R100 to R102).
The operand fields themselves are assembled by the decoder (30_encoding.md R66 to R69). -/

namespace Sys2Proof.Machine

/-- The cursors and the output length, as numbers, at the start of a token. -/
structure TokenContext where
  inCur : Nat
  outCur : Nat
  dlen : Nat
  deriving DecidableEq, Repr

/-- The precondition of every token rule: `PHASE = DECODE`, `OUT_CUR < DLEN` and `IN_CUR < 0x3D00`
(44_decompressor_tokens.md, opening; log entry 12). -/
def tokenContext (s : State) : Except Fault TokenContext := do
  let i ← readReg .inCur s.inCur
  let o ← readReg .outCur s.outCur
  let d ← readReg .dlen s.dlen
  if s.phase = .decode ∧ o.toNat < d.toNat ∧ i.toNat < Config.codeLen then
    return ⟨i.toNat, o.toNat, d.toNat⟩
  else throw .tokenPrecondition

/-- The second byte of a two-byte token would lie outside the region (43_decompressor_control.md R91). -/
def TokenContext.straddles (t : TokenContext) : Bool :=
  decide (t.inCur + 1 ≥ Config.codeLen)

/-- The back-reference guard fails: `offset = 0` or `offset > OUT_CUR` (44_decompressor_tokens.md R100). -/
def TokenContext.badOffset (t : TokenContext) (offset : RefOffset) : Bool :=
  decide (offset.toNat = 0 ∨ offset.toNat > t.outCur)

/-- `src <- OUT_CUR - offset` (44_decompressor_tokens.md R101). -/
def TokenContext.source (t : TokenContext) (offset : RefOffset) : Nat :=
  t.outCur - offset.toNat

/-- `n <- min(length, DLEN - OUT_CUR)`: the copy is clipped at DLEN (44_decompressor_tokens.md R102). -/
def TokenContext.count (t : TokenContext) (length : RefLength) : Nat :=
  min length.toNat (t.dlen - t.outCur)

end Sys2Proof.Machine
end

