-- ==== Sys2Proof/Machine/Tokens.lean ====
section
/-! DEFINITION. The tokens ESC, SYM and BREF (spec/44_decompressor_tokens.md). Each is one atomic step. -/

namespace Sys2Proof.Machine

/-- Write one byte at OUT_CUR and advance both cursors, the input by `bytes` (44_decompressor_tokens.md R97, R98, R104). -/
def emitByte (s : State) (t : TokenContext) (v : Byte) (bytes : Nat) : Except Fault State := do
  let s ← writeOb s t.outCur v
  return (s.setOutCur (t.outCur + 1)).setInCur (t.inCur + bytes)

/-- ESC (44_decompressor_tokens.md R97). -/
def execEsc (v : Byte) (s : State) : Host.Outcome State Fault Refusal :=
  answer do
    let t ← tokenContext s
    if t.straddles then return s.straddle
    else emitByte s t v 2

/-- SYM (44_decompressor_tokens.md R98). -/
def execSym (idx : SymIndex) (s : State) : Host.Outcome State Fault Refusal :=
  answer do
    let t ← tokenContext s
    emitByte s t (readSym s idx) 1

/-- The copy loop of BREF: `n` bytes from `src` to `dst`, one byte at a time in increasing order, so that a byte
written early is a source for a later one (44_decompressor_tokens.md R101, R103; 70_reset_and_hazards.md R132). -/
def copyBytes : Nat → Nat → Nat → State → Except Fault State
  | 0, _, _, s => .ok s
  | n + 1, src, dst, s => do
    let v ← readOb s src
    let s ← writeOb s dst v
    copyBytes n (src + 1) (dst + 1) s

/-- BREF (44_decompressor_tokens.md R101, with the guard of R100 and the clip of R102). The second byte was fetched at
`IN_CUR + 1` before the guard, so `IN_CUR` has advanced by one when the error is raised, while ERR_INFO records the
start of the step (log entry 11). -/
def execBref (offset : RefOffset) (length : RefLength) (s : State) : Host.Outcome State Fault Refusal :=
  answer do
    let t ← tokenContext s
    if t.straddles then return s.straddle
    else if t.badOffset offset then
      return (s.setInCur (t.inCur + 1)).raise s .badReference (.reference offset length)
    else
      let n := t.count length
      let s ← copyBytes n (t.source offset) t.outCur s
      return (s.setOutCur (t.outCur + n)).setInCur (t.inCur + 2)

end Sys2Proof.Machine
end

