-- ==== Sys2Proof/Machine/Dispatch.lean ====
section
/-! DEFINITION. One arm per token (spec/43_decompressor_control.md R90). -/

namespace Sys2Proof.Machine

def exec (i : Instr) (s : State) : Host.Outcome State Fault Refusal :=
  match i with
  | .esc v => Sys2Proof.Machine.execEsc v s
  | .sym idx => Sys2Proof.Machine.execSym idx s
  | .bref offset length => Sys2Proof.Machine.execBref offset length s

end Sys2Proof.Machine
end

