-- ==== Sys2Proof/Machine/Flags.lean ====
section
/-! DEFINITION. The block has no condition codes; no token reads or writes a flag (spec/10_state.md R28). This file holds
the numeric codes of PHASE and ERR (R20, R21) and the four views the host decodes from PHASE (R28). -/

namespace Sys2Proof.Machine

/-- The encoding of PHASE (10_state.md R20). -/
def Phase.code : Phase → BitVec 3
  | .idle => 0
  | .extract => 1
  | .split => 2
  | .gate => 3
  | .decode => 4
  | .done => 5
  | .truncated => 6
  | .error => 7

/-- The encoding of ERR (10_state.md R21). -/
def Err.code : Err → BitVec 3
  | .none => 0
  | .outOfRange => 1
  | .unsupportedVersion => 2
  | .badReference => 3
  | .truncatedInput => 4

/-- `BUSY = PHASE ∈ {EXTRACT, SPLIT, GATE, DECODE}` (10_state.md R28). -/
def Phase.busy : Phase → Bool
  | .extract => true
  | .split => true
  | .gate => true
  | .decode => true
  | .idle => false
  | .done => false
  | .truncated => false
  | .error => false

/-- The terminal phases (10_state.md R20). -/
def Phase.terminal : Phase → Bool
  | .done => true
  | .truncated => true
  | .error => true
  | .idle => false
  | .extract => false
  | .split => false
  | .gate => false
  | .decode => false

/-- The phases with a result to read (10_state.md R35). -/
def Phase.hasResult : Phase → Bool
  | .done => true
  | .truncated => true
  | .error => false
  | .idle => false
  | .extract => false
  | .split => false
  | .gate => false
  | .decode => false

/-- `BUSY` (10_state.md R28). -/
def State.busy (s : State) : Bool := s.phase.busy

/-- `COMPLETE` (10_state.md R28). -/
def State.completed (s : State) : Bool := s.phase == .done

/-- `SHORT` (10_state.md R28). -/
def State.short (s : State) : Bool := s.phase == .truncated

/-- `FAILED` (10_state.md R28). -/
def State.failed (s : State) : Bool := s.phase == .error

end Sys2Proof.Machine
end

