-- ==== Sys2Proof/Machine/RegionSplitter.lean ====
section
/-! DEFINITION. RegionSplitter: the region map, the fixed-offset address decoder and the SPLIT step
(spec/42_region_splitter.md). -/

namespace Sys2Proof.Machine

/-- The cartridge regions (42_region_splitter.md R81). -/
inductive Region where
  | gfx
  | map
  | flags
  | song
  | sfx
  | code
  | version
  deriving DecidableEq, Repr

/-- `base_X` (42_region_splitter.md R81). -/
def Region.base : Region → Nat
  | .gfx => 0x0000
  | .map => 0x2000
  | .flags => 0x3000
  | .song => 0x3100
  | .sfx => 0x3200
  | .code => 0x4300
  | .version => 0x8000

/-- `len_X` (42_region_splitter.md R81). -/
def Region.len : Region → Nat
  | .gfx => 0x2000
  | .map => 0x1000
  | .flags => 0x0100
  | .song => 0x0100
  | .sfx => 0x1100
  | .code => 0x3D00
  | .version => 1

/-- DECODE_ADDR; `none` is the answer NONE (42_region_splitter.md R83). -/
def decodeAddr (addr : BitVec 16) : Option (Region × Nat) :=
  let a := addr.toNat
  if a ≤ 0x1FFF then some (.gfx, a - 0x0000)
  else if a ≤ 0x2FFF then some (.map, a - 0x2000)
  else if a ≤ 0x30FF then some (.flags, a - 0x3000)
  else if a ≤ 0x31FF then some (.song, a - 0x3100)
  else if a ≤ 0x42FF then some (.sfx, a - 0x3200)
  else if a ≤ 0x7FFF then some (.code, a - 0x4300)
  else if a = 0x8000 then some (.version, 0)
  else none

/-- SPLIT (42_region_splitter.md R84): the length check, then VERSION is latched and `PHASE <- GATE`. -/
def stepSplit (s : State) : Except Fault State := do
  let n ← readReg .fbLen s.fbLen
  if n < Config.minStream then
    return s.raise s .outOfRange (.streamLength n)
  else
    let v ← readFb s Config.versionAddr
    return { s with version := some v, phase := .gate }

end Sys2Proof.Machine
end

