-- ==== Sys2Proof/Machine/HostInterface.lean ====
section
/-! DEFINITION. The host's side: the commands START and RESET (spec/45_orchestration.md R106,
70_reset_and_hazards.md R129), and what the host may read, and when (10_state.md R35). A read outside the interface gives
no value (20_memory.md R50). -/

namespace Sys2Proof.Machine

/-- RESET, in any phase: the state of 10_state.md R36, the configuration unchanged (70_reset_and_hazards.md R129). The
turns to come are the environment's and stay. -/
def hostReset (s : State) : State :=
  { State.reset with params := s.params, schedule := s.schedule }

/-- What START writes (45_orchestration.md R106, 10_state.md R37). FB, FB_LEN and OB keep their content until EXTRACT
and GATE replace them. -/
def State.begin (s : State) (w h : Nat) (pix : List Pixel) : State :=
  { s with
    gridW := some w
    gridH := some h
    pix := pix
    err := .none
    errInfo := none
    resultLen := none
    version := none
    dlen := none
    inCur := none
    outCur := none
    phase := .extract }

/-- START(W, H, PIX) (45_orchestration.md R106): accepted in IDLE and the terminal phases only. -/
def hostStart (w h : Nat) (pix : List Pixel) (s : State) : Host.Outcome State Fault Refusal :=
  if s.busy then .refused .startWhileBusy
  else if pix.length = w * h then .next (s.begin w h pix)
  else .refused .malformedGrid

/-- A host command taken as one transaction (10_state.md R34). -/
def hostCommand (cmd : HostCommand) (s : State) : Host.Outcome State Fault Refusal :=
  match cmd with
  | .reset => .next (hostReset s)
  | .start w h pix => hostStart w h pix s

/-! ### Reads -/

/-- PHASE, in every phase (10_state.md R35). -/
def hostPhase (s : State) : BitVec 3 := s.phase.code

/-- ERR, in every phase (10_state.md R35). -/
def hostErr (s : State) : BitVec 3 := s.err.code

/-- ERR_INFO, in every phase (10_state.md R35). -/
def hostErrInfo (s : State) : Option ErrInfo := s.errInfo

/-- RESULT_LEN, in DONE and TRUNCATED only (10_state.md R35). -/
def hostResultLen (s : State) : Option OutCursor :=
  if s.phase.hasResult then s.resultLen else none

/-- `TEXT[i] = OB[i]` for `i < RESULT_LEN`, in DONE and TRUNCATED only (10_state.md R35, 20_memory.md R50). -/
def hostTextByte (s : State) (i : Nat) : Option Byte :=
  match hostResultLen s with
  | some n => if i < n.toNat then Memory.read obUnlisted s.ob i else none
  | none => none

/-- `n` bytes of OB from `a` on, if each of them holds a value. -/
def readText (s : State) : Nat → Nat → Option (List Byte)
  | _, 0 => some []
  | a, n + 1 =>
    match Memory.read obUnlisted s.ob a, readText s (a + 1) n with
    | some v, some rest => some (v :: rest)
    | _, _ => none

/-- The DecompressedText: TEXT as a whole (10_state.md R35, 00_scope.md R14). -/
def hostText (s : State) : Option (List Byte) :=
  match hostResultLen s with
  | some n => readText s 0 n.toNat
  | none => none

/-- The region views: byte `i` of region `X`, in DONE and TRUNCATED only (10_state.md R35, 42_region_splitter.md R81,
R85). -/
def hostRegion (s : State) (x : Region) (i : Nat) : Option Byte :=
  if s.phase.hasResult = true ∧ i < x.len then
    match readFb s (x.base + i) with
    | .ok v => some v
    | .error _ => none
  else none

end Sys2Proof.Machine
end

