-- ==== Sys2Proof/Machine/Loader.lean ====
section
/-! DEFINITION. Placing an instruction from outside where the next fetch finds it (log entry 15). The block itself gets its
program by START, EXTRACT, SPLIT and GATE (spec/70_reset_and_hazards.md R129, R131). -/

namespace Sys2Proof.Machine

/-- The sequencer is about to fetch a token whose two bytes lie inside the region. -/
def State.fetchReady (s : State) : Bool :=
  match s.schedule, s.phase, s.fbLen, s.inCur, s.outCur, s.dlen with
  | [], .decode, some n, some i, some o, some d =>
    decide (Config.minStream ≤ n ∧ i.toNat + 1 < Config.codeLen ∧ o.toNat < d.toNat)
  | _, _, _, _, _, _ => false

/-- What START, EXTRACT, SPLIT and GATE leave for a grid of 0x8001 by 1 pixels whose stream is zero but for
`DLEN = 0xFFFF` and version 1 (log entry 15). -/
def State.blankProgram (s : State) : State :=
  { s with
    phase := .decode
    err := .none
    errInfo := none
    gridW := some Config.minStream
    gridH := some 1
    fbLen := some Config.minStream
    fb := [(Config.codeBase + 4, 0xFF), (Config.codeBase + 5, 0xFF), (Config.versionAddr, 0x01)]
    version := some 0x01
    dlen := some 0xFFFF
    inCur := some 8
    outCur := some 0
    ob := []
    resultLen := none
    schedule := [] }

/-- Store bytes in FB from an address on. -/
def State.placeFb (s : State) : Nat → List Byte → State
  | _, [] => s
  | a, v :: rest => State.placeFb { s with fb := Memory.write fbUnlisted s.fb a v } (a + 1) rest

/-- Where the next token is fetched, as an address of FB. -/
def State.fetchAddr (s : State) : Nat :=
  match s.inCur with
  | some i => Config.codeBase + i.toNat
  | none => Config.codeBase

end Sys2Proof.Machine
end

