-- ==== Sys2Proof/Machine/PixelExtractor.lean ====
section
/-! DEFINITION. PixelExtractor: PACK and the EXTRACT step (spec/41_pixel_extractor.md). -/

namespace Sys2Proof.Machine

/-- PACK: the two low bits of each channel, alpha most significant (41_pixel_extractor.md R76, 30_encoding.md R60). -/
def pack (p : Pixel) : Byte :=
  ((p.a &&& 3) <<< 6) ||| ((p.r &&& 3) <<< 4) ||| ((p.g &&& 3) <<< 2) ||| (p.b &&& 3)

/-- The canonical cells of the packed bytes of a row-major list of pixels, the first at address `p`. Pixel (x, y) stands
at `y × W + x`, so its byte lands there (41_pixel_extractor.md R79, 20_memory.md R39, R40). -/
def packCells : Nat → List Pixel → List Host.Cell
  | _, [] => []
  | p, px :: rest =>
    if some (pack px) = fbUnlisted then packCells (p + 1) rest
    else (p, pack px) :: packCells (p + 1) rest

/-- EXTRACT (41_pixel_extractor.md R79): FB_LEN and FB from the latched grid, then `PHASE <- SPLIT`. It raises nothing. -/
def stepExtract (s : State) : Except Fault State := do
  let w ← readReg .gridW s.gridW
  let h ← readReg .gridH s.gridH
  if s.pix.length = w * h then
    return { s with fbLen := some (w * h), fb := packCells 0 s.pix, phase := .split }
  else throw .pixAddress

end Sys2Proof.Machine
end

