-- ==== Sys2Proof/Machine/Step.lean ====
section
/-! DEFINITION. The step relation (spec/45_orchestration.md R107): in each busy phase exactly one step of the sequencer,
none in IDLE or a terminal phase; and a turn of the host takes the command it issues (10_state.md R34). -/

namespace Sys2Proof.Machine

/-- The DECODE step: the loop tests, then at most one token (43_decompressor_control.md R89). -/
def stepDecode (s : State) : Host.Outcome State Fault Refusal :=
  match loopMove s with
  | .error f => .fault f
  | .ok .full => .next s.complete
  | .ok .spent => .next s.exhaust
  | .ok .straddle => .next s.straddle
  | .ok (.token i) => exec i s

/-- One step of the sequencer (45_orchestration.md R107). -/
def sequencerStep (s : State) : Host.Outcome State Fault Refusal :=
  match s.phase with
  | .extract => answer (stepExtract s)
  | .split => answer (stepSplit s)
  | .gate => answer (stepGate s)
  | .decode => stepDecode s
  | .idle => .fault (.noStepEnabled .idle)
  | .done => .fault (.noStepEnabled .done)
  | .truncated => .fault (.noStepEnabled .truncated)
  | .error => .fault (.noStepEnabled .error)

/-- One step of the machine: the turn at the head of the schedule, the sequencer's where the schedule is empty
(10_state.md R16; log entry 6). -/
def step (s : State) : Host.Outcome State Fault Refusal :=
  match s.schedule with
  | [] => sequencerStep s
  | .sequencer :: turns => sequencerStep (s.setSchedule turns)
  | .host cmd :: turns => hostCommand cmd (s.setSchedule turns)

/-- `s` with an instruction stored where `step` fetches its next one. A state that is not about to fetch gets a program
loaded from outside first (log entry 15). -/
def State.withFetchWord (s : State) (nbits w : Nat) : State :=
  let r := if s.fetchReady then s else s.blankProgram
  r.placeFb r.fetchAddr (tableBytes nbits w)

end Sys2Proof.Machine
end

