-- ==== Sys2Proof/Machine/Assembler.lean ====
section
/-! DEFINITION. The assembler notation: tokens, the header directive HDR (spec/30_encoding.md R74) and the
pseudo-instructions LIT, COPY and TEXT (R75). Not behaviour of the block; it names token streams. -/

namespace Sys2Proof.Machine

/-- One line of the notation (30_encoding.md R74, R75). -/
inductive AsmItem where
  | token (i : Instr)
  | hdr (n : OutCursor)
  | lit (v : Byte)
  | copy (offset : RefOffset) (length : Nat)
  | text (chars : List Char)
  deriving DecidableEq, Repr

/-- The expansion of COPY with `r` bytes left, at most `fuel` tokens long: while more than 17 are left a token of 17, or of
16 where 17 would leave only one, then a token of what is left (30_encoding.md R75). -/
def expandCopy (offset : RefOffset) : Nat → Nat → List Instr
  | 0, _ => []
  | fuel + 1, r =>
    if r > 17 then
      if r - 17 ≥ 2 then .bref offset 17 :: expandCopy offset fuel (r - 17)
      else .bref offset 16 :: expandCopy offset fuel (r - 16)
    else [.bref offset (BitVec.ofNat 5 r)]

/-- The tokens COPY stands for, where its operands are in range: 1 ≤ offset ≤ 3135 and length ≥ 2 (30_encoding.md R75). -/
def copyTokens (offset : RefOffset) (length : Nat) : Option (List Instr) :=
  if 1 ≤ offset.toNat ∧ offset.toNat ≤ Config.offsetMax ∧ 2 ≤ length then
    some (expandCopy offset length length)
  else none

/-- The tokens of TEXT, one `LIT` a character; a character with no byte of its own has none (30_encoding.md R75, R10; log
entry 17). -/
def textTokens : List Char → Option (List Instr)
  | [] => some []
  | ch :: rest =>
    match textTokens rest with
    | some is => if ch.toNat < 128 then some (.esc (BitVec.ofNat 8 ch.toNat) :: is) else none
    | none => none

/-- The header bytes: the reserved ones zero, the length big-endian (30_encoding.md R74, R61). -/
def headerBytes (n : OutCursor) : List Byte :=
  [0, 0, 0, 0, n.extractLsb' 8 8, n.extractLsb' 0 8, 0, 0]

/-- The bytes of one line; `none` where an operand is out of range. -/
def assembleItem : AsmItem → Option (List Byte)
  | .token i => if i.wellFormed then some (encode i) else none
  | .hdr n => some (headerBytes n)
  | .lit v => some (encode (.esc v))
  | .copy offset length => (copyTokens offset length).map fun is => is.flatMap encode
  | .text chars => (textTokens chars).map fun is => is.flatMap encode

/-- The bytes of a program of the notation (30_encoding.md R74). -/
def assemble : List AsmItem → Option (List Byte)
  | [] => some []
  | item :: rest =>
    match assembleItem item, assemble rest with
    | some bytes, some more => some (bytes ++ more)
    | _, _ => none

end Sys2Proof.Machine
end

