-- ==== Sys2Proof/Safety.lean ====
section
/-! DEFINITION. What claims about runs are stated in: the invariant of the block, which says of each phase what the
registers and memories hold (spec/10_state.md R19 to R27, R30, R36), and the outcome kinds. -/

namespace Sys2Proof.Machine

/-- The outcome is a next state. -/
def IsNext (o : Host.Outcome State Fault Refusal) : Prop := ∃ t, o = .next t

/-- A stream is latched: `FB_LEN = GRID_W × GRID_H` (41_pixel_extractor.md R80). -/
def State.HasStream (s : State) : Prop :=
  ∃ w h, s.gridW = some w ∧ s.gridH = some h ∧ s.fbLen = some (w * h)

/-- The stream passed SPLIT: it is long enough and VERSION is its byte 0x8000 (42_region_splitter.md R84). -/
def State.HasVersion (s : State) : Prop :=
  ∃ n v, s.fbLen = some n ∧ Config.minStream ≤ n ∧
    s.version = some v ∧ readFb s Config.versionAddr = .ok v

/-- The decompressor is set up and has come this far: an accepted version, DLEN from the header, the cursors in range,
OB written exactly below OUT_CUR, and no more output than 17 bytes for two of input
(10_state.md R23 to R25, R30; 43_decompressor_control.md R86, R88, R95). -/
def State.HasProgress (s : State) : Prop :=
  ∃ (d o : OutCursor) (i : InCursor),
    s.dlen = some d ∧ s.outCur = some o ∧ s.inCur = some i ∧
    readCrPair s Config.dlenAddr = .ok d ∧
    (∃ v, s.version = some v ∧ v ∈ Config.versionsOk) ∧
    Config.tokenStart ≤ i.toNat ∧ i.toNat ≤ Config.codeLen ∧
    o.toNat ≤ d.toNat ∧ 2 * o.toNat ≤ 17 * (i.toNat - Config.tokenStart) ∧
    s.ob.map Prod.fst = List.range o.toNat

/-- The registers that START clears and a stage writes later hold ⊥ (10_state.md R37). -/
def State.CursorsClear (s : State) : Prop :=
  s.dlen = none ∧ s.inCur = none ∧ s.outCur = none

/-- The invariant of the block. -/
structure State.Inv (s : State) : Prop where
  /-- FB is in canonical form. -/
  fbForm : Memory.wf fbUnlisted s.fb = true
  /-- FB has `FB_LEN` bytes (10_state.md R29). -/
  fbInside : ∀ c ∈ s.fb, ∃ n, s.fbLen = some n ∧ c.1 < n
  /-- OB is in canonical form. -/
  obForm : Memory.wf obUnlisted s.ob = true
  /-- `ERR` is NONE exactly when `PHASE` is not ERROR (10_state.md R21). -/
  errOnlyInError : s.err = .none ↔ s.phase ≠ .error
  /-- `ERR_INFO` is ⊥ exactly when `ERR` is NONE (10_state.md R22). -/
  infoOnlyWithErr : s.errInfo = none ↔ s.err = .none
  /-- `RESULT_LEN` is ⊥ outside DONE and TRUNCATED (10_state.md R27). -/
  resultOnlyAtEnd : s.resultLen ≠ none → s.phase = .done ∨ s.phase = .truncated
  /-- IDLE: no operation has run since reset (10_state.md R20, R36). -/
  atIdle : s.phase = .idle → s.gridW = none ∧ s.gridH = none ∧ s.fbLen = none ∧ s.fb = [] ∧
    s.version = none ∧ s.CursorsClear ∧ s.ob = []
  /-- EXTRACT: the grid is latched and the rest cleared (45_orchestration.md R106). -/
  atExtract : s.phase = .extract →
    (∃ w h, s.gridW = some w ∧ s.gridH = some h ∧ s.pix.length = w * h) ∧
    s.version = none ∧ s.CursorsClear
  /-- SPLIT: the stream is there (41_pixel_extractor.md R79). -/
  atSplit : s.phase = .split → s.HasStream ∧ s.version = none ∧ s.CursorsClear
  /-- GATE: the stream is long enough and VERSION is latched (42_region_splitter.md R84). -/
  atGate : s.phase = .gate → s.HasStream ∧ s.HasVersion ∧ s.CursorsClear
  /-- DECODE: the decompressor runs (43_decompressor_control.md R88, R89). -/
  atDecode : s.phase = .decode → s.HasStream ∧ s.HasVersion ∧ s.HasProgress
  /-- DONE: the output is full (43_decompressor_control.md R92). -/
  atDone : s.phase = .done →
    s.HasStream ∧ s.HasVersion ∧ s.HasProgress ∧ s.outCur = s.dlen ∧ s.resultLen = s.dlen
  /-- TRUNCATED: the input was spent first, and STRICT is off (43_decompressor_control.md R93). -/
  atTruncated : s.phase = .truncated →
    s.HasStream ∧ s.HasVersion ∧ s.HasProgress ∧ s.outCur ≠ s.dlen ∧ s.resultLen = s.outCur ∧
    s.inCur = some (BitVec.ofNat 14 Config.codeLen) ∧ s.params.strict = false

/-- The precondition of every token rule, with the cursors named (44_decompressor_tokens.md, opening). -/
structure State.AtToken (s : State) (i : InCursor) (o d : OutCursor) : Prop where
  phase : s.phase = .decode
  inCur : s.inCur = some i
  outCur : s.outCur = some o
  dlen : s.dlen = some d
  outBelow : o.toNat < d.toNat
  inBelow : i.toNat < Config.codeLen

/-- OB is in canonical form and every position below `OUT_CUR = o` holds a byte (10_state.md R30, R33). A consequence of
the invariant while tokens run. -/
def State.FilledBelow (s : State) (o : OutCursor) : Prop :=
  Memory.wf obUnlisted s.ob = true ∧ ∀ a, a < o.toNat → Memory.read obUnlisted s.ob a ≠ none

/-- The write loop of EXTRACT as its rule writes it: all columns of row 0, then row 1, and so on, one byte a write
(41_pixel_extractor.md R79). -/
def extractLoop (w h : Nat) (pix : List Pixel) : List Host.Cell :=
  (List.range h).foldl (fun m y =>
    (List.range w).foldl (fun m x =>
      match pix[y * w + x]? with
      | some px => Memory.write fbUnlisted m (y * w + x) (pack px)
      | none => m) m) []

/-- Tokens executed one after another. -/
def runTokens : List Instr → State → Host.Outcome State Fault Refusal
  | [], s => .next s
  | i :: rest, s =>
    match exec i s with
    | .next t => runTokens rest t
    | .fault f => .fault f
    | .refused r => .refused r

/-- `n` steps of the machine, stopping at the first outcome that is not a next state. -/
def runSteps : Nat → State → Host.Outcome State Fault Refusal
  | 0, s => .next s
  | n + 1, s =>
    match step s with
    | .next t => runSteps n t
    | .fault f => .fault f
    | .refused r => .refused r

/-- Everything the host may read agrees in two states (10_state.md R35). -/
structure SameToHost (s t : State) : Prop where
  phase : hostPhase s = hostPhase t
  err : hostErr s = hostErr t
  errInfo : hostErrInfo s = hostErrInfo t
  resultLen : hostResultLen s = hostResultLen t
  textByte : ∀ i, hostTextByte s i = hostTextByte t i
  text : hostText s = hostText t
  region : ∀ x i, hostRegion s x i = hostRegion t x i

end Sys2Proof.Machine
end

