-- ==== Sys2Proof/Certificates/Slice0/Obligations.lean ====
section
/-! DEFINITION. The statements for the provers, in the order of spec/: reset and the registers, encodings, PixelExtractor,
RegionSplitter, the decompressor's control, the tokens, errors, the host, and the whole machine. -/

open Sys2Proof Sys2Proof.Machine

/-! ### Reset and the status registers -/

/-- R128, with the table of R36: a new instance holds PHASE = IDLE, ERR = NONE, and no value anywhere else, as if RESET had
been applied. (PIX, which the table does not list, is left unsaid: log entry 10.) -/
def Obligations.NewInstanceIsInResetState : Prop :=
  State.reset.phase = .idle ∧ State.reset.err = .none ∧ State.reset.errInfo = none ∧
  State.reset.gridW = none ∧ State.reset.gridH = none ∧ State.reset.fbLen = none ∧
  State.reset.fb = [] ∧ State.reset.version = none ∧ State.reset.dlen = none ∧
  State.reset.inCur = none ∧ State.reset.outCur = none ∧
  (∀ a, Memory.read obUnlisted State.reset.ob a = none) ∧ State.reset.resultLen = none ∧
  ∀ s : State, s.params = State.reset.params → s.schedule = State.reset.schedule →
    { hostReset s with pix := State.reset.pix } = State.reset

/-- R36 and R129: RESET taken in any phase leaves every row of the reset table, the configuration unchanged. -/
def Obligations.ResetCommandPutsResetTable : Prop :=
  ∀ (s : State) (ts : List Turn), s.schedule = .host .reset :: ts →
    ∃ t, step s = .next t ∧
      hostPhase t = 0 ∧ hostErr t = 0 ∧ t.phase = .idle ∧ t.err = .none ∧ t.errInfo = none ∧
      t.gridW = none ∧ t.gridH = none ∧ t.fbLen = none ∧ t.fb = [] ∧ t.version = none ∧
      t.dlen = none ∧ t.inCur = none ∧ t.outCur = none ∧
      (∀ a, Memory.read obUnlisted t.ob a = none) ∧ t.resultLen = none ∧
      t.params = s.params ∧ t.schedule = ts

/-- The reset state meets the invariant of the block. -/
def Obligations.ResetStateMeetsInvariant : Prop := State.reset.Inv

/-- R28: the four views are functions of the code of PHASE that the host reads. -/
def Obligations.StatusViewsDecodePhase : Prop :=
  ∀ s : State,
    (s.busy = true ↔ hostPhase s = 1 ∨ hostPhase s = 2 ∨ hostPhase s = 3 ∨ hostPhase s = 4) ∧
    (s.completed = true ↔ hostPhase s = 5) ∧ (s.short = true ↔ hostPhase s = 6) ∧
    (s.failed = true ↔ hostPhase s = 7)

/-! ### Encodings -/

/-- Decoding the bytes of a well-formed token gives the token and leaves the bytes after it: no bit of an encoding is
dropped (R63 to R70). -/
def Obligations.DecodeOfEncode : Prop :=
  ∀ (i : Instr) (rest : List Byte), i.wellFormed = true → decode (encode i ++ rest) = .ok (i, rest)

/-- Whatever decodes is well formed and is the only encoding of its token (R70, R71). -/
def Obligations.EncodeOfDecode : Prop :=
  ∀ (bytes : List Byte) (i : Instr) (rest : List Byte),
    decode bytes = .ok (i, rest) → i.wellFormed = true ∧ bytes = encode i ++ rest

/-- R70: (c, b) with c ≥ 0x3C and (offset, length) in {0..3135} × {2..17} correspond one to one, with the inverse the rule
gives. -/
def Obligations.BrefOperandsBijective : Prop :=
  (∀ c b : Byte, 0x3C ≤ c.toNat →
    (brefOffset c b).toNat ≤ 3135 ∧ 2 ≤ (brefLength b).toNat ∧ (brefLength b).toNat ≤ 17) ∧
  ∀ (offset : RefOffset) (length : RefLength),
    offset.toNat ≤ 3135 → 2 ≤ length.toNat → length.toNat ≤ 17 →
    ∀ c b : Byte, (0x3C ≤ c.toNat ∧ brefOffset c b = offset ∧ brefLength b = length) ↔
      (c.toNat = 0x3C + offset.toNat / 16 ∧ b.toNat = (length.toNat - 2) * 16 + offset.toNat % 16)

/-- R69, and the offset of R68: the operands of a back-reference, as exact numbers. -/
def Obligations.BrefOperandValues : Prop :=
  ∀ c b : Byte, 0x3C ≤ c.toNat →
    (brefOffset c b).toNat = (c.toNat - 0x3C) * 16 + b.toNat % 16 ∧
    brefOffset c b = (BitVec.setWidth 12 (c - 0x3C) <<< 4) ||| BitVec.setWidth 12 (b &&& 0x0F) ∧
    (brefLength b).toNat = (b >>> 4).toNat + 2 ∧
    (b >>> 4).toNat = (b.extractLsb' 4 4).toNat ∧
    2 ≤ (brefLength b).toNat ∧ (brefLength b).toNat ≤ 17

/-- R71: the covers are disjoint, they cover every control byte, each fits exactly the bytes of its token, and the token has
the length of the table. -/
def Obligations.ControlByteCoversExact : Prop :=
  ∀ c : Byte,
    (coverRows.filter fun r => r.fits c).map CoverRow.kind = [tokenKind c] ∧
    (tokenKind c = .esc ↔ c = 0x00) ∧
    (tokenKind c = .sym ↔ 0x01 ≤ c.toNat ∧ c.toNat ≤ 0x3B) ∧
    (tokenKind c = .bref ↔ 0x3C ≤ c.toNat ∧ c.toNat ≤ 0xFF) ∧
    tokenLength (tokenKind c) = (if 0x01 ≤ c.toNat ∧ c.toNat ≤ 0x3B then 1 else 2)

/-- R72 and R73: every control byte with a byte after it decodes, and the control byte alone says how many bytes the token
takes. -/
def Obligations.ControlByteGivesLength : Prop :=
  (∀ (c b : Byte) (rest : List Byte), ∃ i more, decode (c :: b :: rest) = .ok (i, more)) ∧
  ∀ (c : Byte) (rest : List Byte) (i : Instr) (more : List Byte),
    decode (c :: rest) = .ok (i, more) →
      (c :: rest).length = more.length + (if 0x01 ≤ c.toNat ∧ c.toNat ≤ 0x3B then 1 else 2)

/-- Words written out from the encodings of R63 to R69 and the table of V16. -/
def Obligations.SampleWordsDecode : Prop :=
  decode [0x00, 0x41] = .ok (.esc 0x41, []) ∧
  decode [0x29] = .ok (.sym 41, []) ∧
  decode [0x3B, 0x3C] = .ok (.sym 59, [0x3C]) ∧
  decode [0x3C, 0x41] = .ok (.bref 1 6, []) ∧
  decode [0x7F, 0x8C] = .ok (.bref 1084 10, []) ∧
  decode [0xFF, 0xFF] = .ok (.bref 3135 17, []) ∧
  decode [0x3C] = .error .noSecondByte

/-- R75: COPY stands for back-references of its own offset, each of 2 to 17 bytes, whose lengths sum to its length. -/
def Obligations.CopyExpansionSumsToLength : Prop :=
  ∀ (offset : RefOffset) (length : Nat), 1 ≤ offset.toNat → offset.toNat ≤ 3135 → 2 ≤ length →
    ∃ ls : List RefLength,
      copyTokens offset length = some (ls.map fun l => Instr.bref offset l) ∧
      (∀ l ∈ ls, 2 ≤ l.toNat ∧ l.toNat ≤ 17) ∧ (ls.map BitVec.toNat).sum = length

/-- R75 with R103: the tokens of COPY, run one after another where they fit, act as ONE periodic copy of the summed
length. -/
def Obligations.CopyExpansionIsOnePeriodicCopy : Prop :=
  ∀ (s : State) (i : InCursor) (o d : OutCursor) (offset : RefOffset) (length : Nat)
    (tokens : List Instr),
    s.AtToken i o d → s.FilledBelow o → copyTokens offset length = some tokens →
    offset.toNat ≤ o.toNat → o.toNat + length ≤ d.toNat →
    i.toNat + 2 * tokens.length ≤ Config.codeLen →
    ∃ t, runTokens tokens s = .next t ∧
      t.outCur = some (BitVec.ofNat 16 (o.toNat + length)) ∧
      t.inCur = some (BitVec.ofNat 14 (i.toNat + 2 * tokens.length)) ∧
      (∀ k, k < length → Memory.read obUnlisted t.ob (o.toNat + k) =
        Memory.read obUnlisted s.ob (o.toNat - offset.toNat + k % offset.toNat)) ∧
      ∀ a, a < o.toNat ∨ o.toNat + length ≤ a →
        Memory.read obUnlisted t.ob a = Memory.read obUnlisted s.ob a

/-! ### PixelExtractor -/

/-- R60 (and R76, R77): the packed byte is the four two-bit fragments, alpha first; no other bit of a channel counts. -/
def Obligations.PackConcatenatesLowBits : Prop :=
  ∀ p : Pixel, pack p = p.a.extractLsb' 0 2 ++ p.r.extractLsb' 0 2 ++
    p.g.extractLsb' 0 2 ++ p.b.extractLsb' 0 2

/-- R78: the pixels that pack to `y` are exactly the ones with the low bits of `y` under any high bits, one for each choice
of the 24 high bits. -/
def Obligations.PackPreimages : Prop :=
  ∀ (y : Byte) (p : Pixel), pack p = y ↔
    ∃! h : BitVec 6 × BitVec 6 × BitVec 6 × BitVec 6,
      p = ⟨h.1 ++ y.extractLsb' 6 2, h.2.1 ++ y.extractLsb' 4 2,
        h.2.2.1 ++ y.extractLsb' 2 2, h.2.2.2 ++ y.extractLsb' 0 2⟩

/-- R79: EXTRACT sets FB_LEN to W × H, puts the packed byte of pixel (x, y) at `y × W + x`, goes to SPLIT, and changes
nothing else. -/
def Obligations.ExtractPacksGridRowMajor : Prop :=
  ∀ (s : State) (w h : Nat), s.schedule = [] → s.phase = .extract → s.gridW = some w →
    s.gridH = some h → s.pix.length = w * h →
    ∃ fb, step s = .next { s with fbLen := some (w * h), fb := fb, phase := .split } ∧
      (∀ x y, x < w → y < h → ∃ px, s.pix[y * w + x]? = some px ∧
        readFb { s with fbLen := some (w * h), fb := fb } (y * w + x) = .ok (pack px)) ∧
      ∀ a, w * h ≤ a → ∀ c ∈ fb, c.1 ≠ a

/-- R79: the cells EXTRACT leaves are those of the rule's own loop of one-byte writes, row by row. -/
def Obligations.ExtractEqualsWriteLoop : Prop :=
  ∀ (w h : Nat) (pix : List Pixel), pix.length = w * h → packCells 0 pix = extractLoop w h pix

/-! ### RegionSplitter -/

/-- R82 and R83, with the bases and lengths of R81: each region ends where the next begins, and the address decoder answers
the one region and offset of every address up to 0x8000, and NONE above. -/
def Obligations.RegionsTileTheStream : Prop :=
  [Region.gfx, .map, .flags, .song, .sfx, .code, .version].map (fun x => (x.base, x.base + x.len)) =
    [(0x0000, 0x2000), (0x2000, 0x3000), (0x3000, 0x3100), (0x3100, 0x3200), (0x3200, 0x4300),
     (0x4300, 0x8000), (0x8000, 0x8001)] ∧
  ∀ addr : BitVec 16,
    (∀ x n, decodeAddr addr = some (x, n) ↔ n < x.len ∧ addr.toNat = x.base + n) ∧
    (decodeAddr addr = none ↔ 0x8001 ≤ addr.toNat)

/-- R84: SPLIT raises OUT_OF_RANGE with the stream length exactly when the stream is shorter than 0x8001 bytes; else it
latches the byte at 0x8000 and goes to GATE. Nothing else changes. -/
def Obligations.SplitChecksStreamLength : Prop :=
  ∀ (s : State) (n : Nat), s.schedule = [] → s.phase = .split → s.fbLen = some n →
    if n < 0x8001 then
      step s = .next { s with
        err := .outOfRange
        errInfo := some ⟨.split, s.inCur, s.outCur, .streamLength n⟩
        phase := .error }
    else
      ∃ v, readFb s 0x8000 = .ok v ∧ step s = .next { s with version := some v, phase := .gate }

/-- R81 and R85 at the host: with a stream of at least 0x8001 bytes, byte `n` of each region is the stream's byte at the
region's base plus `n`, in DONE and TRUNCATED only. -/
def Obligations.RegionViewsReadTheStream : Prop :=
  ∀ (s : State) (len : Nat) (x : Region) (n : Nat), s.fbLen = some len → 0x8001 ≤ len →
    if (s.phase = .done ∨ s.phase = .truncated) ∧ n < x.len then
      ∃ v, readFb s (x.base + n) = .ok v ∧ hostRegion s x n = some v
    else hostRegion s x n = none

/-! ### The decompressor's control -/

/-- R86 and R88: GATE raises UNSUPPORTED_VERSION for every version byte but 1 and 5; for those it reads DLEN big-endian from
CR bytes 4 and 5, empties OB, sets the cursors to 8 and 0, and goes to DECODE. Nothing else changes. -/
def Obligations.GateChecksVersionThenReadsHeader : Prop :=
  ∀ (s : State) (v : Byte) (n : Nat), s.schedule = [] → s.phase = .gate → s.version = some v →
    s.fbLen = some n → 0x8001 ≤ n →
    if v ≠ 0x01 ∧ v ≠ 0x05 then
      step s = .next { s with
        err := .unsupportedVersion
        errInfo := some ⟨.gate, s.inCur, s.outCur, .versionByte v⟩
        phase := .error }
    else
      ∃ (hi lo : Byte) (d : OutCursor), readCr s 4 = .ok hi ∧ readCr s 5 = .ok lo ∧
        d.toNat = hi.toNat * 256 + lo.toNat ∧
        step s = .next { s with
          dlen := some d
          ob := []
          inCur := some 8
          outCur := some 0
          phase := .decode }

/-- R92: a DECODE step that finds the output full ends in DONE with RESULT_LEN = DLEN, whatever input is left; in a state
with the invariant OUT_CUR is then exactly DLEN and every position of OB holds a byte. -/
def Obligations.FullOutputEndsInDone : Prop :=
  ∀ (s : State) (i : InCursor) (o d : OutCursor), s.schedule = [] → s.phase = .decode →
    s.inCur = some i → s.outCur = some o → s.dlen = some d → d.toNat ≤ o.toNat →
    step s = .next { s with resultLen := some d, phase := .done } ∧
    (s.Inv → o = d ∧ ∀ a, a < d.toNat → Memory.read obUnlisted s.ob a ≠ none)

/-- R93: a DECODE step that finds the input spent with output missing raises TRUNCATED_INPUT under STRICT, and else ends in
TRUNCATED with RESULT_LEN = OUT_CUR; in a state with the invariant the first OUT_CUR positions hold bytes and the
rest hold none. -/
def Obligations.SpentInputEndsByStrict : Prop :=
  ∀ (s : State) (i : InCursor) (o d : OutCursor), s.schedule = [] → s.phase = .decode →
    s.inCur = some i → s.outCur = some o → s.dlen = some d → o.toNat < d.toNat →
    0x3D00 ≤ i.toNat →
    (step s = .next (if s.params.strict = true then
        { s with
          err := .truncatedInput
          errInfo := some ⟨.decode, some i, some o, .noValue⟩
          phase := .error }
      else { s with resultLen := some o, phase := .truncated })) ∧
    (s.Inv → ∀ a, Memory.read obUnlisted s.ob a ≠ none ↔ a < o.toNat)

/-- R91: a DECODE step that finds the control byte of a two-byte token in the last byte of the region only sets IN_CUR to
0x3D00, and the next DECODE step is the input exhaustion of R93. -/
def Obligations.StraddlingTokenSpendsInput : Prop :=
  ∀ (s : State) (o d : OutCursor) (c : Byte), s.schedule = [] → s.AtToken 0x3CFF o d →
    readCr s 0x3CFF = .ok c → (c.toNat = 0 ∨ 0x3C ≤ c.toNat) →
    step s = .next { s with inCur := some 0x3D00 } ∧
    step { s with inCur := some 0x3D00 } = .next (State.exhaust { s with inCur := some 0x3D00 })

/-- A step runs the decoded token: where the loop tests pass and the bytes at IN_CUR decode to `instr`, the step is `exec` of
`instr` at that state, after a turn of the schedule, if there is one, is taken off. -/
def Obligations.StepRunsDecodedToken : Prop :=
  ∀ (s : State) (i : InCursor) (o d : OutCursor) (bytes : List Byte) (instr : Instr),
    s.AtToken i o d → decode bytes = .ok (instr, []) →
    (∀ k v, bytes[k]? = some v → readCr s (i.toNat + k) = .ok v) →
    (s.schedule = [] → step s = exec instr s) ∧
    ∀ ts, s.schedule = .sequencer :: ts → step s = exec instr (s.setSchedule ts)

/-- R58, R25 and R49: no step of the DECODE phase changes the stream, what is fetched from it, DLEN, VERSION, the grid or the
configuration. -/
def Obligations.DecodeStepKeepsStream : Prop :=
  ∀ s t : State, s.schedule = [] → s.phase = .decode → step s = .next t →
    t.fb = s.fb ∧ t.fbLen = s.fbLen ∧ (∀ k, readCr t k = readCr s k) ∧ t.dlen = s.dlen ∧
    t.version = s.version ∧ t.gridW = s.gridW ∧ t.gridH = s.gridH ∧ t.pix = s.pix ∧
    t.params = s.params

/-! ### The tokens -/

/-- R97: a DECODE step at the control byte 0x00 runs ESC with the byte after it, and ESC writes its literal at OUT_CUR and
advances OUT_CUR by 1 and IN_CUR by 2; a straddling ESC only sets IN_CUR to 0x3D00. It raises nothing and changes
nothing else. -/
def Obligations.EscEmitsLiteral : Prop :=
  ∀ (s : State) (i : InCursor) (o d : OutCursor) (v : Byte), s.AtToken i o d →
    Memory.wf obUnlisted s.ob = true →
    (s.schedule = [] → readCr s i.toNat = .ok 0x00 →
      (i.toNat + 1 < 0x3D00 → readCr s (i.toNat + 1) = .ok v) → step s = exec (.esc v) s) ∧
    if i.toNat + 1 ≥ 0x3D00 then exec (.esc v) s = .next { s with inCur := some 0x3D00 }
    else
      ∃ (ob : List Host.Cell) (i' : InCursor) (o' : OutCursor),
        exec (.esc v) s = .next { s with ob := ob, inCur := some i', outCur := some o' } ∧
        i'.toNat = i.toNat + 2 ∧ o'.toNat = o.toNat + 1 ∧
        Memory.read obUnlisted ob o.toNat = some v ∧
        ∀ a, a ≠ o.toNat → Memory.read obUnlisted ob a = Memory.read obUnlisted s.ob a

/-- R98: a DECODE step at a control byte `c` from 0x01 to 0x3B runs SYM with `idx = c`, and SYM writes entry `idx` of the
symbol table at OUT_CUR and advances both cursors by 1, at any position of the region. It raises nothing and changes
nothing else. -/
def Obligations.SymEmitsTableEntry : Prop :=
  ∀ (s : State) (i : InCursor) (o d : OutCursor) (idx : SymIndex), s.AtToken i o d →
    Memory.wf obUnlisted s.ob = true →
    (∀ c : Byte, s.schedule = [] → readCr s i.toNat = .ok c → 0x01 ≤ c.toNat → c.toNat ≤ 0x3B →
      idx.toNat = c.toNat → step s = exec (.sym idx) s) ∧
    ∃ (ob : List Host.Cell) (i' : InCursor) (o' : OutCursor),
      exec (.sym idx) s = .next { s with ob := ob, inCur := some i', outCur := some o' } ∧
      i'.toNat = i.toNat + 1 ∧ o'.toNat = o.toNat + 1 ∧
      Memory.read obUnlisted ob o.toNat = s.params.symbolTable[idx.toNat]? ∧
      ∀ a, a ≠ o.toNat → Memory.read obUnlisted ob a = Memory.read obUnlisted s.ob a

/-- R99: under the duplicate of the source's table, SYM 41 emits the character of entry 0. -/
def Obligations.DuplicateSymbolEmitsEntryZero : Prop :=
  ∀ (s : State) (i : InCursor) (o d : OutCursor), s.AtToken i o d →
    Memory.wf obUnlisted s.ob = true → s.params.DuplicateEntry →
    ∃ t, exec (.sym 41) s = .next t ∧
      Memory.read obUnlisted t.ob o.toNat = some s.params.symbolTable[0]

/-- R102 and the law of R103, for the copy of R101: a DECODE step at the bytes `c b` with `c ≥ 0x3C` runs the BREF of their
operands, and a BREF with its second byte in the region and 1 ≤ offset ≤ OUT_CUR copies `n = min(length, DLEN − OUT_CUR)`
bytes; byte `k` is the byte that stood at `OUT_CUR − offset + (k mod offset)` before the token, OUT_CUR grows by `n` and
IN_CUR by 2. Nothing else changes. -/
def Obligations.BrefCopiesPeriodically : Prop :=
  ∀ (s : State) (i : InCursor) (o d : OutCursor) (offset : RefOffset) (length : RefLength),
    s.AtToken i o d → s.FilledBelow o → i.toNat + 1 < 0x3D00 →
    1 ≤ offset.toNat → offset.toNat ≤ o.toNat →
    (∀ c b : Byte, s.schedule = [] → readCr s i.toNat = .ok c → readCr s (i.toNat + 1) = .ok b →
      0x3C ≤ c.toNat → offset.toNat = (c.toNat - 0x3C) * 16 + b.toNat % 16 →
      length.toNat = b.toNat / 16 + 2 → step s = exec (.bref offset length) s) ∧
    ∃ (ob : List Host.Cell) (i' : InCursor) (o' : OutCursor) (n : Nat),
      exec (.bref offset length) s =
        .next { s with ob := ob, inCur := some i', outCur := some o' } ∧
      n = (if o.toNat + length.toNat > d.toNat then d.toNat - o.toNat else length.toNat) ∧
      i'.toNat = i.toNat + 2 ∧ o'.toNat = o.toNat + n ∧ o'.toNat ≤ d.toNat ∧
      (∀ k, k < n → Memory.read obUnlisted ob (o.toNat + k) =
        Memory.read obUnlisted s.ob (o.toNat - offset.toNat + k % offset.toNat) ∧
        Memory.read obUnlisted ob (o.toNat + k) ≠ none) ∧
      ∀ a, a < o.toNat ∨ o.toNat + n ≤ a →
        Memory.read obUnlisted ob a = Memory.read obUnlisted s.ob a

/-- R100: a BREF with offset 0 or above OUT_CUR raises BAD_REFERENCE with the pair, its address and OUT_CUR, and neither
reads nor writes OB; with the invariant, every source of a BREF that passes the guard is written. (IN_CUR, which R101
has advanced by then, is left unsaid: log entry 11.) -/
def Obligations.BadOffsetRaisesBadReference : Prop :=
  ∀ (s : State) (i : InCursor) (o d : OutCursor) (offset : RefOffset) (length : RefLength),
    s.AtToken i o d → i.toNat + 1 < 0x3D00 →
    if offset.toNat = 0 ∨ offset.toNat > o.toNat then
      ∃ cur, exec (.bref offset length) s = .next { s with
        err := .badReference
        errInfo := some ⟨.decode, some i, some o, .reference offset length⟩
        phase := .error
        inCur := cur }
    else
      s.Inv → ∀ a, o.toNat - offset.toNat ≤ a → a < o.toNat →
        Memory.read obUnlisted s.ob a ≠ none

/-- R91 and R117 for the meanings: a two-byte token at the last byte of the region writes nothing, raises nothing (a BREF with a
bad offset included) and sets IN_CUR to 0x3D00. -/
def Obligations.StraddlingTokensWriteNothing : Prop :=
  ∀ (s : State) (o d : OutCursor) (v : Byte) (offset : RefOffset) (length : RefLength),
    s.AtToken 0x3CFF o d →
    exec (.esc v) s = .next { s with inCur := some 0x3D00 } ∧
    exec (.bref offset length) s = .next { s with inCur := some 0x3D00 }

/-- R104 (and R105): the cursors after any token that raises nothing. A straddle advances IN_CUR by 1 and OUT_CUR not at all;
every other token advances IN_CUR by its length in bytes and OUT_CUR by at least 1, exactly 1 for ESC and SYM, and
never past DLEN. -/
def Obligations.TokensAdvanceCursors : Prop :=
  ∀ (s t : State) (i : InCursor) (o d : OutCursor) (instr : Instr), s.AtToken i o d →
    instr.wellFormed = true → exec instr s = .next t → t.phase ≠ .error →
    ∃ (i' : InCursor) (o' : OutCursor), t.inCur = some i' ∧ t.outCur = some o' ∧
      if i.toNat + instr.byteLength > 0x3D00 then
        i'.toNat = 0x3D00 ∧ i'.toNat = i.toNat + 1 ∧ o' = o
      else
        i'.toNat = i.toNat + instr.byteLength ∧
        (match instr with
          | .esc _ => o'.toNat = o.toNat + 1
          | .sym _ => o'.toNat = o.toNat + 1
          | .bref _ length => o'.toNat = o.toNat + min length.toNat (d.toNat - o.toNat)) ∧
        o.toNat < o'.toNat ∧ o'.toNat ≤ d.toNat

/-- The frame of the tokens: ESC, SYM and BREF leave every register but IN_CUR and OUT_CUR (and, where BREF raises, PHASE,
ERR and ERR_INFO) as it was, FB and the grid too, and every position of OB but the ones they store to: the position
OUT_CUR for ESC and SYM, the `count` positions from OUT_CUR on for BREF, none for a straddle or a bad offset. -/
def Obligations.TokenFrame : Prop :=
  ∀ (s t : State) (c : TokenContext) (instr : Instr), tokenContext s = .ok c →
    Memory.wf obUnlisted s.ob = true → exec instr s = .next t →
    t.params = s.params ∧ t.gridW = s.gridW ∧ t.gridH = s.gridH ∧ t.pix = s.pix ∧
    t.fbLen = s.fbLen ∧ t.fb = s.fb ∧ t.version = s.version ∧ t.dlen = s.dlen ∧
    t.resultLen = s.resultLen ∧ t.schedule = s.schedule ∧
    (match instr with
      | .esc _ => t.phase = s.phase ∧ t.err = s.err ∧ t.errInfo = s.errInfo ∧
          (c.straddles = true → t.ob = s.ob) ∧
          ∀ a, a ≠ c.outCur → Memory.read obUnlisted t.ob a = Memory.read obUnlisted s.ob a
      | .sym _ => t.phase = s.phase ∧ t.err = s.err ∧ t.errInfo = s.errInfo ∧
          ∀ a, a ≠ c.outCur → Memory.read obUnlisted t.ob a = Memory.read obUnlisted s.ob a
      | .bref offset length =>
          (c.straddles = true ∨ c.badOffset offset = false →
            t.phase = s.phase ∧ t.err = s.err ∧ t.errInfo = s.errInfo) ∧
          (c.straddles = true ∨ c.badOffset offset = true →
            t.ob = s.ob ∧ t.outCur = s.outCur) ∧
          ∀ a, a < c.outCur ∨ c.outCur + c.count length ≤ a →
            Memory.read obUnlisted t.ob a = Memory.read obUnlisted s.ob a)

/-- R114 and R115: the only error a token can raise is BAD_REFERENCE, and only BREF raises it; ESC and SYM raise nothing. -/
def Obligations.OnlyBrefRaises : Prop :=
  ∀ (s t : State) (instr : Instr), exec instr s = .next t →
    (t.phase = .decode ∧ t.err = s.err ∧ t.errInfo = s.errInfo) ∨
    (t.phase = .error ∧ t.err = .badReference ∧ ∃ offset length, instr = .bref offset length)

/-- In every state with the invariant a token completes exactly where the precondition of the token rules holds. (That it stops
elsewhere is the model's choice, log entry 12.) -/
def Obligations.TokensCompleteExactlyInPrecondition : Prop :=
  ∀ (s : State) (instr : Instr), s.Inv →
    (IsNext (exec instr s) ↔ ∃ i o d, s.AtToken i o d)

/-- R30 and R42: no position of OB is written twice: a DECODE step keeps the value of every position that holds one. -/
def Obligations.WrittenPositionsStay : Prop :=
  ∀ (s t : State) (a : Nat) (v : Byte), s.Inv → s.schedule = [] → s.phase = .decode →
    step s = .next t → Memory.read obUnlisted s.ob a = some v →
    Memory.read obUnlisted t.ob a = some v

/-! ### Errors -/

/-- R111 with R22 and R118: when the sequencer's step ends in ERROR, the error is one of the four of the table, raised by its
stage, for its cause, with its value; BAD_REFERENCE by the BREF whose two bytes stand at IN_CUR and IN_CUR + 1, for the
offset of those bytes, with their pair. ERR_INFO records the stage and the cursors at the start of the step; and OB, FB,
VERSION and DLEN are as they were. -/
def Obligations.StepRaisesOnlyTabledErrors : Prop :=
  ∀ s t : State, s.schedule = [] → step s = .next t → t.phase = .error →
    (∃ value, t.errInfo = some ⟨s.phase, s.inCur, s.outCur, value⟩ ∧
      ((s.phase = .split ∧ t.err = .outOfRange ∧ hostErr t = 1 ∧
          ∃ n, s.fbLen = some n ∧ n < 0x8001 ∧ value = .streamLength n) ∨
       (s.phase = .gate ∧ t.err = .unsupportedVersion ∧ hostErr t = 2 ∧
          ∃ v, s.version = some v ∧ v ≠ 1 ∧ v ≠ 5 ∧ value = .versionByte v) ∨
       (s.phase = .decode ∧ t.err = .badReference ∧ hostErr t = 3 ∧
          ∃ (i : InCursor) (o d : OutCursor) (c b : Byte), s.AtToken i o d ∧
            readCr s i.toNat = .ok c ∧ readCr s (i.toNat + 1) = .ok b ∧ 0x3C ≤ c.toNat ∧
            ((brefOffset c b).toNat = 0 ∨ (brefOffset c b).toNat > o.toNat) ∧
            value = .reference (brefOffset c b) (brefLength b)) ∨
       (s.phase = .decode ∧ t.err = .truncatedInput ∧ hostErr t = 4 ∧
          s.params.strict = true ∧
          ∃ (i : InCursor) (o d : OutCursor), s.inCur = some i ∧ s.outCur = some o ∧
            s.dlen = some d ∧ 0x3D00 ≤ i.toNat ∧ o.toNat < d.toNat ∧ value = .noValue))) ∧
    t.ob = s.ob ∧ t.fb = s.fb ∧ t.fbLen = s.fbLen ∧ t.version = s.version ∧ t.dlen = s.dlen ∧
    t.outCur = s.outCur ∧ t.resultLen = s.resultLen

/-! ### The host -/

/-- R35: in DONE and TRUNCATED the host reads RESULT_LEN, the text of that many bytes, which are OB's, and every region;
in every other phase, ERROR among them, it reads none of these. -/
def Obligations.HostReadsOnlyEndedResults : Prop :=
  ∀ s : State, s.Inv →
    if s.phase = .done ∨ s.phase = .truncated then
      ∃ (n : OutCursor) (text : List Byte), hostResultLen s = some n ∧ s.resultLen = some n ∧
        hostText s = some text ∧ text.length = n.toNat ∧
        (∀ k, k < n.toNat → Memory.read obUnlisted s.ob k = text[k]?) ∧
        (∀ k, hostTextByte s k = text[k]?) ∧
        ∀ x k, k < x.len → hostRegion s x k ≠ none
    else
      hostResultLen s = none ∧ hostText s = none ∧ (∀ k, hostTextByte s k = none) ∧
      ∀ x k, hostRegion s x k = none

/-- R106 and R37: START in IDLE or a terminal phase latches the grid, clears the registers of the last operation and goes to
EXTRACT; it leaves FB, FB_LEN and OB to the stages that replace them. -/
def Obligations.StartBeginsAnOperation : Prop :=
  ∀ (s : State) (w h : Nat) (pix : List Pixel) (ts : List Turn),
    s.schedule = .host (.start w h pix) :: ts →
    s.phase = .idle ∨ s.phase = .done ∨ s.phase = .truncated ∨ s.phase = .error →
    pix.length = w * h →
    step s = .next
      { params := s.params
        phase := .extract
        err := .none
        errInfo := none
        gridW := some w
        gridH := some h
        pix := pix
        fbLen := s.fbLen
        fb := s.fb
        version := none
        dlen := none
        inCur := none
        outCur := none
        ob := s.ob
        resultLen := none
        schedule := ts }

/-- The model refuses a START in a busy phase, to which the spec gives no meaning (R136; the model's choice, log entry 8). -/
def Obligations.StartWhileBusyIsRefused : Prop :=
  ∀ (s : State) (w h : Nat) (pix : List Pixel) (ts : List Turn),
    s.schedule = .host (.start w h pix) :: ts →
    s.phase = .extract ∨ s.phase = .split ∨ s.phase = .gate ∨ s.phase = .decode →
    step s = .refused .startWhileBusy

/-! ### The whole machine -/

/-- R107: on the sequencer's turn no step is enabled in IDLE and the terminal phases, and only there (that the model then stops
by a fault of this name is its choice, log entry 7). -/
def Obligations.NoStepOutsideBusyPhases : Prop :=
  ∀ (s : State) (p : Phase), s.schedule = [] →
    (step s = .fault (.noStepEnabled p) ↔
      p = s.phase ∧ (p = .idle ∨ p = .done ∨ p = .truncated ∨ p = .error))

/-- R107 and R108: where the sequencer's step can lead from each phase. -/
def Obligations.StageOrder : Prop :=
  ∀ s t : State, s.schedule = [] → step s = .next t →
    (s.phase = .extract ∧ t.phase = .split) ∨
    (s.phase = .split ∧ (t.phase = .gate ∨ t.phase = .error)) ∨
    (s.phase = .gate ∧ (t.phase = .decode ∨ t.phase = .error)) ∨
    (s.phase = .decode ∧
      (t.phase = .decode ∨ t.phase = .done ∨ t.phase = .truncated ∨ t.phase = .error))

/-- R34 and R129: no step, of the sequencer or of the host, changes the configuration. -/
def Obligations.ConfigurationNeverChanges : Prop :=
  ∀ s t : State, step s = .next t → t.params = s.params

/-- R31: entries 0 and 60 to 63 of the symbol table are never read: a table that differs only there gives the same step. -/
def Obligations.UnreachableSymbolsNeverRead : Prop :=
  ∀ (s t : State) (p : Params), s.schedule = [] → p.strict = s.params.strict →
    (∀ n : Nat, 1 ≤ n → n ≤ 0x3B → p.symbolTable[n]? = s.params.symbolTable[n]?) →
    step s = .next t → step { s with params := p } = .next { t with params := p }

/-- Every step, of the sequencer or of the host, keeps the invariant of the block. -/
def Obligations.StepKeepsInvariant : Prop :=
  ∀ s t : State, s.Inv → step s = .next t → t.Inv

/-- With the invariant, the sequencer's step in a busy phase always answers a next state: no read falls outside FB or CR, on a
⊥ position of OB or on a register holding ⊥ (R41, R50, R51, R103). -/
def Obligations.BusyStepNeverStops : Prop :=
  ∀ s : State, s.Inv → s.schedule = [] → s.busy = true → IsNext (step s)

/-- R94 and R110: from every busy state with the invariant the sequencer reaches a terminal phase within 15,612 steps. -/
def Obligations.OperationEndsWithinBound : Prop :=
  ∀ s : State, s.Inv → s.schedule = [] → s.busy = true →
    ∃ n t, n ≤ 15612 ∧ runSteps n s = .next t ∧ t.phase.terminal = true

/-- R37 and R109: what an operation shows the host depends on the configuration and the grid alone: two instances with the same
configuration, whatever they did before, show the same after the same START and any number of steps. -/
def Obligations.OperationsAreIndependent : Prop :=
  ∀ (s₁ s₂ : State) (w h : Nat) (pix : List Pixel) (n : Nat) (t₁ : State),
    s₁.params = s₂.params →
    s₁.schedule = [.host (.start w h pix)] → s₂.schedule = [.host (.start w h pix)] →
    s₁.busy = false → s₂.busy = false →
    runSteps (n + 1) s₁ = .next t₁ →
    ∃ t₂, runSteps (n + 1) s₂ = .next t₂ ∧ SameToHost t₁ t₂
end

