-- ==== Sys2Proof/Laws/Decode.lean ====
section
/-! SUPPORT. What the decoder answers, by the control byte: one lemma per kind, cited instead of unfolding `decode`. -/

namespace Sys2Proof

theorem wellFormed_sym_iff {idx : SymIndex} :
    (Instr.sym idx).wellFormed = true ↔ 1 ≤ idx.toNat ∧ idx.toNat ≤ 0x3B := by
  simp only [Instr.wellFormed, decide_eq_true_eq]

theorem wellFormed_bref_iff {offset : RefOffset} {length : RefLength} :
    (Instr.bref offset length).wellFormed = true ↔
      offset.toNat ≤ 3135 ∧ 2 ≤ length.toNat ∧ length.toNat ≤ 17 := by
  simp only [Instr.wellFormed, decide_eq_true_eq]

theorem tokenKind_esc_iff {c : Byte} : tokenKind c = .esc ↔ c.toNat = 0 := by
  unfold tokenKind
  split
  · simp [*]
  · split <;> simp [*]

theorem tokenKind_sym_iff {c : Byte} : tokenKind c = .sym ↔ 1 ≤ c.toNat ∧ c.toNat ≤ 0x3B := by
  unfold tokenKind
  split
  · simp [*]
  · split <;> simp_all [Config.symMax] <;> omega

theorem tokenKind_bref_iff {c : Byte} : tokenKind c = .bref ↔ 0x3C ≤ c.toNat := by
  unfold tokenKind
  split
  · simp [*]
  · split <;> simp_all [Config.symMax] <;> omega

/-- What decodes: an ESC pair, a SYM byte or a BREF pair, with the bytes after it. -/
theorem decode_cases {bytes rest : List Byte} {i : Instr} (h : decode bytes = .ok (i, rest)) :
    (∃ c v, bytes = c :: v :: rest ∧ tokenKind c = .esc ∧ i = .esc v) ∨
    (∃ c, bytes = c :: rest ∧ tokenKind c = .sym ∧ i = .sym (symOperand c)) ∨
    (∃ c b, bytes = c :: b :: rest ∧ tokenKind c = .bref ∧
      i = .bref (brefOffset c b) (brefLength b)) := by
  cases bytes with
  | nil => simp [decode] at h
  | cons c bs =>
    cases hk : tokenKind c <;> cases bs <;> simp [decode, hk] at h <;> obtain ⟨rfl, rfl⟩ := h
    · exact .inl ⟨_, _, rfl, hk, rfl⟩
    · exact .inr (.inl ⟨_, rfl, hk, rfl⟩)
    · exact .inr (.inl ⟨_, rfl, hk, rfl⟩)
    · exact .inr (.inr ⟨_, _, rfl, hk, rfl⟩)

theorem symOperand_toNat {c : Byte} (h : c.toNat ≤ 0x3B) : (symOperand c).toNat = c.toNat := by
  simp only [symOperand, BitVec.extractLsb'_toNat, Nat.shiftRight_zero]
  omega

theorem brefOffset_toNat (c b : Byte) :
    (brefOffset c b).toNat = (c.toNat - 0x3C) * 16 + b.toNat % 16 := by
  have hb : (b &&& 0xF).toNat = b.toNat % 16 := by
    rw [BitVec.toNat_and]
    exact Nat.and_two_pow_sub_one_eq_mod b.toNat 4
  have := c.isLt
  simp only [brefOffset, Config.brefBase, BitVec.toNat_ofNat, hb]
  omega

theorem brefLength_toNat (b : Byte) : (brefLength b).toNat = b.toNat / 16 + 2 := by
  have := b.isLt
  simp only [brefLength, BitVec.toNat_ofNat, BitVec.toNat_ushiftRight, Nat.shiftRight_eq_div_pow]
  omega

end Sys2Proof
end

