-- ==== Sys2Proof/Laws/Memory.lean ====
section
/-! SUPPORT. The laws of sparse memories: what a write leaves at every address, and that every memory operation keeps the
canonical form, which makes equal memories equal lists. -/

namespace Sys2Proof.Machine

/-- The canonical form of a list with a head: the head is not the unlisted byte, lies below the rest, and the rest is
canonical. -/
theorem Memory.wf_cons (d : Option Byte) (x : Nat) (v : Byte) (m : List Host.Cell) :
    Memory.wf d ((x, v) :: m) = true ↔
      some v ≠ d ∧ (∀ c ∈ m, x < c.1) ∧ Memory.wf d m = true := by
  simp [Memory.wf, and_assoc]

@[simp] theorem Memory.wf_nil (d : Option Byte) : Memory.wf d [] = true := rfl

/-- The memories at reset are canonical. -/
theorem Memory.wf_reset :
    Memory.wf fbUnlisted State.reset.fb = true ∧ Memory.wf obUnlisted State.reset.ob = true :=
  ⟨rfl, rfl⟩

theorem Memory.read_of_not_listed (d : Option Byte) (m : List Host.Cell) (a : Nat)
    (h : ∀ c ∈ m, c.1 ≠ a) : Memory.read d m a = d := by
  induction m with
  | nil => rfl
  | cons c m ih =>
    obtain ⟨x, v⟩ := c
    have hx : x ≠ a := h (x, v) (by simp)
    simp only [Memory.read, hx, if_false]
    exact ih fun c hc => h c (List.mem_cons_of_mem _ hc)

/-- An inserted byte is read back, and every other address reads as before. -/
theorem Memory.read_insert (d : Option Byte) (m : List Host.Cell) (hm : Memory.wf d m = true)
    (a : Nat) (v : Byte) (b : Nat) :
    Memory.read d (Memory.insert a v m) b = if b = a then some v else Memory.read d m b := by
  induction m with
  | nil => simp [Memory.insert, Memory.read, eq_comm]
  | cons c m ih =>
    obtain ⟨x, w⟩ := c
    obtain ⟨-, hlt, hrest⟩ := (Memory.wf_cons d x w m).1 hm
    unfold Memory.insert
    split
    · simp only [Memory.read, eq_comm (a := a) (b := b)]
    · split
      · subst_vars
        simp only [Memory.read, eq_comm (a := x) (b := b)]
        split <;> rfl
      · simp only [Memory.read, ih hrest]
        by_cases hxb : x = b
        · subst hxb
          simp [show ¬ x = a from fun h => by omega]
        · simp [hxb]

theorem Memory.read_erase (d : Option Byte) (m : List Host.Cell) (a b : Nat) :
    Memory.read d (Memory.erase a m) b = if b = a then d else Memory.read d m b := by
  induction m with
  | nil => simp [Memory.erase, Memory.read]
  | cons c m ih =>
    obtain ⟨x, w⟩ := c
    unfold Memory.erase at ih ⊢
    by_cases hx : x = a
    · subst hx
      simp only [List.filter, bne_self_eq_false, ih, Memory.read]
      by_cases hb : b = x
      · simp [hb]
      · simp [hb, Ne.symm hb]
    · have hx' : (x != a) = true := by simpa using hx
      simp only [List.filter, hx', Memory.read, ih]
      by_cases hb : x = b
      · subst hb; simp [hx]
      · simp [hb]

/-- A read after a write: the byte written at its address, and the old content everywhere else. -/
theorem Memory.read_write (d : Option Byte) (m : List Host.Cell) (hm : Memory.wf d m = true)
    (a : Nat) (v : Byte) (b : Nat) :
    Memory.read d (Memory.write d m a v) b = if b = a then some v else Memory.read d m b := by
  unfold Memory.write
  split
  · next h => rw [Memory.read_erase, h]
  · exact Memory.read_insert d m hm a v b

theorem Memory.mem_insert {a : Nat} {v : Byte} {m : List Host.Cell} {c : Host.Cell}
    (h : c ∈ Memory.insert a v m) : c = (a, v) ∨ c ∈ m := by
  induction m with
  | nil => simpa [Memory.insert] using h
  | cons y m ih =>
    obtain ⟨x, w⟩ := y
    unfold Memory.insert at h
    split at h
    · simpa using h
    · split at h
      · rcases List.mem_cons.1 h with h | h
        · exact .inl h
        · exact .inr (List.mem_cons_of_mem _ h)
      · rcases List.mem_cons.1 h with h | h
        · exact .inr (h ▸ List.mem_cons_self)
        · exact (ih h).imp_right (List.mem_cons_of_mem _)

theorem Memory.mem_write {d : Option Byte} {a : Nat} {v : Byte} {m : List Host.Cell} {c : Host.Cell}
    (h : c ∈ Memory.write d m a v) : c = (a, v) ∨ c ∈ m := by
  unfold Memory.write at h
  split at h
  · exact .inr (List.mem_filter.1 h).1
  · exact Memory.mem_insert h

theorem Memory.wf_insert (d : Option Byte) (m : List Host.Cell) (hm : Memory.wf d m = true)
    (a : Nat) (v : Byte) (hv : some v ≠ d) : Memory.wf d (Memory.insert a v m) = true := by
  induction m with
  | nil => simp [Memory.insert, Memory.wf_cons, hv]
  | cons c m ih =>
    obtain ⟨x, w⟩ := c
    obtain ⟨hw, hlt, hrest⟩ := (Memory.wf_cons d x w m).1 hm
    unfold Memory.insert
    split
    · next h =>
      refine (Memory.wf_cons ..).2 ⟨hv, fun c hc => ?_, hm⟩
      rcases List.mem_cons.1 hc with rfl | hc
      · exact h
      · exact h.trans (hlt c hc)
    · split
      · subst_vars
        exact (Memory.wf_cons ..).2 ⟨hv, hlt, hrest⟩
      · refine (Memory.wf_cons ..).2 ⟨hw, fun c hc => ?_, ih hrest⟩
        rcases Memory.mem_insert hc with rfl | hc
        · show x < a
          omega
        · exact hlt c hc

theorem Memory.wf_erase (d : Option Byte) (m : List Host.Cell) (hm : Memory.wf d m = true)
    (a : Nat) : Memory.wf d (Memory.erase a m) = true := by
  induction m with
  | nil => rfl
  | cons c m ih =>
    obtain ⟨x, w⟩ := c
    obtain ⟨hw, hlt, hrest⟩ := (Memory.wf_cons d x w m).1 hm
    unfold Memory.erase at ih ⊢
    rw [List.filter_cons]
    split
    · exact (Memory.wf_cons ..).2 ⟨hw, fun c hc => hlt c (List.mem_filter.1 hc).1, ih hrest⟩
    · exact ih hrest

/-- A write keeps the canonical form. -/
theorem Memory.wf_write (d : Option Byte) (m : List Host.Cell) (hm : Memory.wf d m = true)
    (a : Nat) (v : Byte) : Memory.wf d (Memory.write d m a v) = true := by
  unfold Memory.write
  split
  · exact Memory.wf_erase d m hm a
  · exact Memory.wf_insert d m hm a v ‹_›

/-- A byte put above every listed address goes to the end. -/
theorem Memory.insert_at_end (a : Nat) (v : Byte) (m : List Host.Cell) (h : ∀ c ∈ m, c.1 < a) :
    Memory.insert a v m = m ++ [(a, v)] := by
  induction m with
  | nil => rfl
  | cons c m ih =>
    obtain ⟨x, w⟩ := c
    have hx : x < a := h (x, w) (by simp)
    unfold Memory.insert
    rw [if_neg (by omega), if_neg (by omega), ih fun c hc => h c (List.mem_cons_of_mem _ hc)]
    rfl

/-- Equal reads at every address make canonical memories equal: the form is canonical. -/
theorem Memory.ext (d : Option Byte) (m n : List Host.Cell) (hm : Memory.wf d m = true)
    (hn : Memory.wf d n = true) (h : ∀ a, Memory.read d m a = Memory.read d n a) : m = n := by
  induction m generalizing n with
  | nil =>
    cases n with
    | nil => rfl
    | cons c n =>
      obtain ⟨x, v⟩ := c
      have hx := h x
      simp only [Memory.read, if_true] at hx
      exact absurd hx.symm ((Memory.wf_cons ..).1 hn).1
  | cons c m ih =>
    obtain ⟨x, v⟩ := c
    obtain ⟨hv, hlt, hrest⟩ := (Memory.wf_cons ..).1 hm
    have below : ∀ {l : List Host.Cell} {a b : Nat}, (∀ c ∈ l, a < c.1) → b ≤ a →
        Memory.read d l b = d := fun hl hb =>
      Memory.read_of_not_listed d _ _ fun c hc => by have := hl c hc; omega
    cases n with
    | nil =>
      have hx := h x
      simp only [Memory.read, if_true] at hx
      exact absurd hx hv
    | cons c n =>
      obtain ⟨y, w⟩ := c
      obtain ⟨hw, hlt', hrest'⟩ := (Memory.wf_cons ..).1 hn
      have hxy : x = y := by
        rcases Nat.lt_trichotomy x y with hc | hc | hc
        · have hx := h x
          simp only [Memory.read, if_true, show ¬ y = x by omega, if_false] at hx
          rw [below hlt' (by omega)] at hx
          exact absurd hx hv
        · exact hc
        · have hx := h y
          simp only [Memory.read, if_true, show ¬ x = y by omega, if_false] at hx
          rw [below hlt (by omega)] at hx
          exact absurd hx.symm hw
      subst hxy
      have hvw : v = w := by simpa [Memory.read] using h x
      subst hvw
      congr 1
      refine ih n hrest hrest' fun a => ?_
      by_cases ha : x = a
      · subst ha
        rw [below hlt (Nat.le_refl _), below hlt' (Nat.le_refl _)]
      · simpa [Memory.read, ha] using h a

end Sys2Proof.Machine
end

