-- ==== Sys2Proof/Laws/State.lean ====
section
/-! SUPPORT. What each update of the state leaves in each field, so that no later proof unfolds an update. -/

namespace Sys2Proof.Machine

/-! ### `State.setInCur` -/

@[simp] theorem State.setInCur_params (s : State) (n : Nat) : (s.setInCur n).params = s.params := rfl
@[simp] theorem State.setInCur_phase (s : State) (n : Nat) : (s.setInCur n).phase = s.phase := rfl
@[simp] theorem State.setInCur_err (s : State) (n : Nat) : (s.setInCur n).err = s.err := rfl
@[simp] theorem State.setInCur_errInfo (s : State) (n : Nat) : (s.setInCur n).errInfo = s.errInfo := rfl
@[simp] theorem State.setInCur_gridW (s : State) (n : Nat) : (s.setInCur n).gridW = s.gridW := rfl
@[simp] theorem State.setInCur_gridH (s : State) (n : Nat) : (s.setInCur n).gridH = s.gridH := rfl
@[simp] theorem State.setInCur_pix (s : State) (n : Nat) : (s.setInCur n).pix = s.pix := rfl
@[simp] theorem State.setInCur_fbLen (s : State) (n : Nat) : (s.setInCur n).fbLen = s.fbLen := rfl
@[simp] theorem State.setInCur_fb (s : State) (n : Nat) : (s.setInCur n).fb = s.fb := rfl
@[simp] theorem State.setInCur_version (s : State) (n : Nat) : (s.setInCur n).version = s.version := rfl
@[simp] theorem State.setInCur_dlen (s : State) (n : Nat) : (s.setInCur n).dlen = s.dlen := rfl
@[simp] theorem State.setInCur_inCur (s : State) (n : Nat) : (s.setInCur n).inCur = some (BitVec.ofNat 14 n) := rfl
@[simp] theorem State.setInCur_outCur (s : State) (n : Nat) : (s.setInCur n).outCur = s.outCur := rfl
@[simp] theorem State.setInCur_ob (s : State) (n : Nat) : (s.setInCur n).ob = s.ob := rfl
@[simp] theorem State.setInCur_resultLen (s : State) (n : Nat) : (s.setInCur n).resultLen = s.resultLen := rfl
@[simp] theorem State.setInCur_schedule (s : State) (n : Nat) : (s.setInCur n).schedule = s.schedule := rfl

/-! ### `State.setOutCur` -/

@[simp] theorem State.setOutCur_params (s : State) (n : Nat) : (s.setOutCur n).params = s.params := rfl
@[simp] theorem State.setOutCur_phase (s : State) (n : Nat) : (s.setOutCur n).phase = s.phase := rfl
@[simp] theorem State.setOutCur_err (s : State) (n : Nat) : (s.setOutCur n).err = s.err := rfl
@[simp] theorem State.setOutCur_errInfo (s : State) (n : Nat) : (s.setOutCur n).errInfo = s.errInfo := rfl
@[simp] theorem State.setOutCur_gridW (s : State) (n : Nat) : (s.setOutCur n).gridW = s.gridW := rfl
@[simp] theorem State.setOutCur_gridH (s : State) (n : Nat) : (s.setOutCur n).gridH = s.gridH := rfl
@[simp] theorem State.setOutCur_pix (s : State) (n : Nat) : (s.setOutCur n).pix = s.pix := rfl
@[simp] theorem State.setOutCur_fbLen (s : State) (n : Nat) : (s.setOutCur n).fbLen = s.fbLen := rfl
@[simp] theorem State.setOutCur_fb (s : State) (n : Nat) : (s.setOutCur n).fb = s.fb := rfl
@[simp] theorem State.setOutCur_version (s : State) (n : Nat) : (s.setOutCur n).version = s.version := rfl
@[simp] theorem State.setOutCur_dlen (s : State) (n : Nat) : (s.setOutCur n).dlen = s.dlen := rfl
@[simp] theorem State.setOutCur_inCur (s : State) (n : Nat) : (s.setOutCur n).inCur = s.inCur := rfl
@[simp] theorem State.setOutCur_outCur (s : State) (n : Nat) : (s.setOutCur n).outCur = some (BitVec.ofNat 16 n) := rfl
@[simp] theorem State.setOutCur_ob (s : State) (n : Nat) : (s.setOutCur n).ob = s.ob := rfl
@[simp] theorem State.setOutCur_resultLen (s : State) (n : Nat) : (s.setOutCur n).resultLen = s.resultLen := rfl
@[simp] theorem State.setOutCur_schedule (s : State) (n : Nat) : (s.setOutCur n).schedule = s.schedule := rfl

/-! ### `State.setSchedule` -/

@[simp] theorem State.setSchedule_params (s : State) (ts : List Turn) : (s.setSchedule ts).params = s.params := rfl
@[simp] theorem State.setSchedule_phase (s : State) (ts : List Turn) : (s.setSchedule ts).phase = s.phase := rfl
@[simp] theorem State.setSchedule_err (s : State) (ts : List Turn) : (s.setSchedule ts).err = s.err := rfl
@[simp] theorem State.setSchedule_errInfo (s : State) (ts : List Turn) : (s.setSchedule ts).errInfo = s.errInfo := rfl
@[simp] theorem State.setSchedule_gridW (s : State) (ts : List Turn) : (s.setSchedule ts).gridW = s.gridW := rfl
@[simp] theorem State.setSchedule_gridH (s : State) (ts : List Turn) : (s.setSchedule ts).gridH = s.gridH := rfl
@[simp] theorem State.setSchedule_pix (s : State) (ts : List Turn) : (s.setSchedule ts).pix = s.pix := rfl
@[simp] theorem State.setSchedule_fbLen (s : State) (ts : List Turn) : (s.setSchedule ts).fbLen = s.fbLen := rfl
@[simp] theorem State.setSchedule_fb (s : State) (ts : List Turn) : (s.setSchedule ts).fb = s.fb := rfl
@[simp] theorem State.setSchedule_version (s : State) (ts : List Turn) : (s.setSchedule ts).version = s.version := rfl
@[simp] theorem State.setSchedule_dlen (s : State) (ts : List Turn) : (s.setSchedule ts).dlen = s.dlen := rfl
@[simp] theorem State.setSchedule_inCur (s : State) (ts : List Turn) : (s.setSchedule ts).inCur = s.inCur := rfl
@[simp] theorem State.setSchedule_outCur (s : State) (ts : List Turn) : (s.setSchedule ts).outCur = s.outCur := rfl
@[simp] theorem State.setSchedule_ob (s : State) (ts : List Turn) : (s.setSchedule ts).ob = s.ob := rfl
@[simp] theorem State.setSchedule_resultLen (s : State) (ts : List Turn) : (s.setSchedule ts).resultLen = s.resultLen := rfl
@[simp] theorem State.setSchedule_schedule (s : State) (ts : List Turn) : (s.setSchedule ts).schedule = ts := rfl

/-! ### `State.setOb` -/

@[simp] theorem State.setOb_params (s : State) (a : Nat) (v : Byte) : (s.setOb a v).params = s.params := rfl
@[simp] theorem State.setOb_phase (s : State) (a : Nat) (v : Byte) : (s.setOb a v).phase = s.phase := rfl
@[simp] theorem State.setOb_err (s : State) (a : Nat) (v : Byte) : (s.setOb a v).err = s.err := rfl
@[simp] theorem State.setOb_errInfo (s : State) (a : Nat) (v : Byte) : (s.setOb a v).errInfo = s.errInfo := rfl
@[simp] theorem State.setOb_gridW (s : State) (a : Nat) (v : Byte) : (s.setOb a v).gridW = s.gridW := rfl
@[simp] theorem State.setOb_gridH (s : State) (a : Nat) (v : Byte) : (s.setOb a v).gridH = s.gridH := rfl
@[simp] theorem State.setOb_pix (s : State) (a : Nat) (v : Byte) : (s.setOb a v).pix = s.pix := rfl
@[simp] theorem State.setOb_fbLen (s : State) (a : Nat) (v : Byte) : (s.setOb a v).fbLen = s.fbLen := rfl
@[simp] theorem State.setOb_fb (s : State) (a : Nat) (v : Byte) : (s.setOb a v).fb = s.fb := rfl
@[simp] theorem State.setOb_version (s : State) (a : Nat) (v : Byte) : (s.setOb a v).version = s.version := rfl
@[simp] theorem State.setOb_dlen (s : State) (a : Nat) (v : Byte) : (s.setOb a v).dlen = s.dlen := rfl
@[simp] theorem State.setOb_inCur (s : State) (a : Nat) (v : Byte) : (s.setOb a v).inCur = s.inCur := rfl
@[simp] theorem State.setOb_outCur (s : State) (a : Nat) (v : Byte) : (s.setOb a v).outCur = s.outCur := rfl
@[simp] theorem State.setOb_ob (s : State) (a : Nat) (v : Byte) : (s.setOb a v).ob = Memory.write obUnlisted s.ob a v := rfl
@[simp] theorem State.setOb_resultLen (s : State) (a : Nat) (v : Byte) : (s.setOb a v).resultLen = s.resultLen := rfl
@[simp] theorem State.setOb_schedule (s : State) (a : Nat) (v : Byte) : (s.setOb a v).schedule = s.schedule := rfl

/-! ### `State.raise` -/

@[simp] theorem State.raise_params (s : State) (start : State) (e : Err) (info : ErrValue) : (s.raise start e info).params = s.params := rfl
@[simp] theorem State.raise_phase (s : State) (start : State) (e : Err) (info : ErrValue) : (s.raise start e info).phase = .error := rfl
@[simp] theorem State.raise_err (s : State) (start : State) (e : Err) (info : ErrValue) : (s.raise start e info).err = e := rfl
@[simp] theorem State.raise_errInfo (s : State) (start : State) (e : Err) (info : ErrValue) : (s.raise start e info).errInfo = some ⟨start.phase, start.inCur, start.outCur, info⟩ := rfl
@[simp] theorem State.raise_gridW (s : State) (start : State) (e : Err) (info : ErrValue) : (s.raise start e info).gridW = s.gridW := rfl
@[simp] theorem State.raise_gridH (s : State) (start : State) (e : Err) (info : ErrValue) : (s.raise start e info).gridH = s.gridH := rfl
@[simp] theorem State.raise_pix (s : State) (start : State) (e : Err) (info : ErrValue) : (s.raise start e info).pix = s.pix := rfl
@[simp] theorem State.raise_fbLen (s : State) (start : State) (e : Err) (info : ErrValue) : (s.raise start e info).fbLen = s.fbLen := rfl
@[simp] theorem State.raise_fb (s : State) (start : State) (e : Err) (info : ErrValue) : (s.raise start e info).fb = s.fb := rfl
@[simp] theorem State.raise_version (s : State) (start : State) (e : Err) (info : ErrValue) : (s.raise start e info).version = s.version := rfl
@[simp] theorem State.raise_dlen (s : State) (start : State) (e : Err) (info : ErrValue) : (s.raise start e info).dlen = s.dlen := rfl
@[simp] theorem State.raise_inCur (s : State) (start : State) (e : Err) (info : ErrValue) : (s.raise start e info).inCur = s.inCur := rfl
@[simp] theorem State.raise_outCur (s : State) (start : State) (e : Err) (info : ErrValue) : (s.raise start e info).outCur = s.outCur := rfl
@[simp] theorem State.raise_ob (s : State) (start : State) (e : Err) (info : ErrValue) : (s.raise start e info).ob = s.ob := rfl
@[simp] theorem State.raise_resultLen (s : State) (start : State) (e : Err) (info : ErrValue) : (s.raise start e info).resultLen = s.resultLen := rfl
@[simp] theorem State.raise_schedule (s : State) (start : State) (e : Err) (info : ErrValue) : (s.raise start e info).schedule = s.schedule := rfl

/-! ### `State.complete` -/

@[simp] theorem State.complete_params (s : State) : s.complete.params = s.params := rfl
@[simp] theorem State.complete_phase (s : State) : s.complete.phase = .done := rfl
@[simp] theorem State.complete_err (s : State) : s.complete.err = s.err := rfl
@[simp] theorem State.complete_errInfo (s : State) : s.complete.errInfo = s.errInfo := rfl
@[simp] theorem State.complete_gridW (s : State) : s.complete.gridW = s.gridW := rfl
@[simp] theorem State.complete_gridH (s : State) : s.complete.gridH = s.gridH := rfl
@[simp] theorem State.complete_pix (s : State) : s.complete.pix = s.pix := rfl
@[simp] theorem State.complete_fbLen (s : State) : s.complete.fbLen = s.fbLen := rfl
@[simp] theorem State.complete_fb (s : State) : s.complete.fb = s.fb := rfl
@[simp] theorem State.complete_version (s : State) : s.complete.version = s.version := rfl
@[simp] theorem State.complete_dlen (s : State) : s.complete.dlen = s.dlen := rfl
@[simp] theorem State.complete_inCur (s : State) : s.complete.inCur = s.inCur := rfl
@[simp] theorem State.complete_outCur (s : State) : s.complete.outCur = s.outCur := rfl
@[simp] theorem State.complete_ob (s : State) : s.complete.ob = s.ob := rfl
@[simp] theorem State.complete_resultLen (s : State) : s.complete.resultLen = s.dlen := rfl
@[simp] theorem State.complete_schedule (s : State) : s.complete.schedule = s.schedule := rfl

/-! ### `State.truncate` -/

@[simp] theorem State.truncate_params (s : State) : s.truncate.params = s.params := rfl
@[simp] theorem State.truncate_phase (s : State) : s.truncate.phase = .truncated := rfl
@[simp] theorem State.truncate_err (s : State) : s.truncate.err = s.err := rfl
@[simp] theorem State.truncate_errInfo (s : State) : s.truncate.errInfo = s.errInfo := rfl
@[simp] theorem State.truncate_gridW (s : State) : s.truncate.gridW = s.gridW := rfl
@[simp] theorem State.truncate_gridH (s : State) : s.truncate.gridH = s.gridH := rfl
@[simp] theorem State.truncate_pix (s : State) : s.truncate.pix = s.pix := rfl
@[simp] theorem State.truncate_fbLen (s : State) : s.truncate.fbLen = s.fbLen := rfl
@[simp] theorem State.truncate_fb (s : State) : s.truncate.fb = s.fb := rfl
@[simp] theorem State.truncate_version (s : State) : s.truncate.version = s.version := rfl
@[simp] theorem State.truncate_dlen (s : State) : s.truncate.dlen = s.dlen := rfl
@[simp] theorem State.truncate_inCur (s : State) : s.truncate.inCur = s.inCur := rfl
@[simp] theorem State.truncate_outCur (s : State) : s.truncate.outCur = s.outCur := rfl
@[simp] theorem State.truncate_ob (s : State) : s.truncate.ob = s.ob := rfl
@[simp] theorem State.truncate_resultLen (s : State) : s.truncate.resultLen = s.outCur := rfl
@[simp] theorem State.truncate_schedule (s : State) : s.truncate.schedule = s.schedule := rfl

/-! ### `State.straddle` -/

@[simp] theorem State.straddle_params (s : State) : s.straddle.params = s.params := rfl
@[simp] theorem State.straddle_phase (s : State) : s.straddle.phase = s.phase := rfl
@[simp] theorem State.straddle_err (s : State) : s.straddle.err = s.err := rfl
@[simp] theorem State.straddle_errInfo (s : State) : s.straddle.errInfo = s.errInfo := rfl
@[simp] theorem State.straddle_gridW (s : State) : s.straddle.gridW = s.gridW := rfl
@[simp] theorem State.straddle_gridH (s : State) : s.straddle.gridH = s.gridH := rfl
@[simp] theorem State.straddle_pix (s : State) : s.straddle.pix = s.pix := rfl
@[simp] theorem State.straddle_fbLen (s : State) : s.straddle.fbLen = s.fbLen := rfl
@[simp] theorem State.straddle_fb (s : State) : s.straddle.fb = s.fb := rfl
@[simp] theorem State.straddle_version (s : State) : s.straddle.version = s.version := rfl
@[simp] theorem State.straddle_dlen (s : State) : s.straddle.dlen = s.dlen := rfl
@[simp] theorem State.straddle_inCur (s : State) : s.straddle.inCur = some (BitVec.ofNat 14 Config.codeLen) := rfl
@[simp] theorem State.straddle_outCur (s : State) : s.straddle.outCur = s.outCur := rfl
@[simp] theorem State.straddle_ob (s : State) : s.straddle.ob = s.ob := rfl
@[simp] theorem State.straddle_resultLen (s : State) : s.straddle.resultLen = s.resultLen := rfl
@[simp] theorem State.straddle_schedule (s : State) : s.straddle.schedule = s.schedule := rfl

/-! ### `State.begin` -/

@[simp] theorem State.begin_params (s : State) (w h : Nat) (pix : List Pixel) : (s.begin w h pix).params = s.params := rfl
@[simp] theorem State.begin_phase (s : State) (w h : Nat) (pix : List Pixel) : (s.begin w h pix).phase = .extract := rfl
@[simp] theorem State.begin_err (s : State) (w h : Nat) (pix : List Pixel) : (s.begin w h pix).err = .none := rfl
@[simp] theorem State.begin_errInfo (s : State) (w h : Nat) (pix : List Pixel) : (s.begin w h pix).errInfo = none := rfl
@[simp] theorem State.begin_gridW (s : State) (w h : Nat) (pix : List Pixel) : (s.begin w h pix).gridW = some w := rfl
@[simp] theorem State.begin_gridH (s : State) (w h : Nat) (pix : List Pixel) : (s.begin w h pix).gridH = some h := rfl
@[simp] theorem State.begin_pix (s : State) (w h : Nat) (pix : List Pixel) : (s.begin w h pix).pix = pix := rfl
@[simp] theorem State.begin_fbLen (s : State) (w h : Nat) (pix : List Pixel) : (s.begin w h pix).fbLen = s.fbLen := rfl
@[simp] theorem State.begin_fb (s : State) (w h : Nat) (pix : List Pixel) : (s.begin w h pix).fb = s.fb := rfl
@[simp] theorem State.begin_version (s : State) (w h : Nat) (pix : List Pixel) : (s.begin w h pix).version = none := rfl
@[simp] theorem State.begin_dlen (s : State) (w h : Nat) (pix : List Pixel) : (s.begin w h pix).dlen = none := rfl
@[simp] theorem State.begin_inCur (s : State) (w h : Nat) (pix : List Pixel) : (s.begin w h pix).inCur = none := rfl
@[simp] theorem State.begin_outCur (s : State) (w h : Nat) (pix : List Pixel) : (s.begin w h pix).outCur = none := rfl
@[simp] theorem State.begin_ob (s : State) (w h : Nat) (pix : List Pixel) : (s.begin w h pix).ob = s.ob := rfl
@[simp] theorem State.begin_resultLen (s : State) (w h : Nat) (pix : List Pixel) : (s.begin w h pix).resultLen = none := rfl
@[simp] theorem State.begin_schedule (s : State) (w h : Nat) (pix : List Pixel) : (s.begin w h pix).schedule = s.schedule := rfl

/-! ### `State.openDecode` -/

@[simp] theorem State.openDecode_params (s : State) (d : OutCursor) : (s.openDecode d).params = s.params := rfl
@[simp] theorem State.openDecode_phase (s : State) (d : OutCursor) : (s.openDecode d).phase = .decode := rfl
@[simp] theorem State.openDecode_err (s : State) (d : OutCursor) : (s.openDecode d).err = s.err := rfl
@[simp] theorem State.openDecode_errInfo (s : State) (d : OutCursor) : (s.openDecode d).errInfo = s.errInfo := rfl
@[simp] theorem State.openDecode_gridW (s : State) (d : OutCursor) : (s.openDecode d).gridW = s.gridW := rfl
@[simp] theorem State.openDecode_gridH (s : State) (d : OutCursor) : (s.openDecode d).gridH = s.gridH := rfl
@[simp] theorem State.openDecode_pix (s : State) (d : OutCursor) : (s.openDecode d).pix = s.pix := rfl
@[simp] theorem State.openDecode_fbLen (s : State) (d : OutCursor) : (s.openDecode d).fbLen = s.fbLen := rfl
@[simp] theorem State.openDecode_fb (s : State) (d : OutCursor) : (s.openDecode d).fb = s.fb := rfl
@[simp] theorem State.openDecode_version (s : State) (d : OutCursor) : (s.openDecode d).version = s.version := rfl
@[simp] theorem State.openDecode_dlen (s : State) (d : OutCursor) : (s.openDecode d).dlen = some d := rfl
@[simp] theorem State.openDecode_inCur (s : State) (d : OutCursor) : (s.openDecode d).inCur = some (BitVec.ofNat 14 Config.tokenStart) := rfl
@[simp] theorem State.openDecode_outCur (s : State) (d : OutCursor) : (s.openDecode d).outCur = some 0 := rfl
@[simp] theorem State.openDecode_ob (s : State) (d : OutCursor) : (s.openDecode d).ob = [] := rfl
@[simp] theorem State.openDecode_resultLen (s : State) (d : OutCursor) : (s.openDecode d).resultLen = s.resultLen := rfl
@[simp] theorem State.openDecode_schedule (s : State) (d : OutCursor) : (s.openDecode d).schedule = s.schedule := rfl

/-! ### `hostReset` -/

@[simp] theorem hostReset_params (s : State) : (hostReset s).params = s.params := rfl
@[simp] theorem hostReset_phase (s : State) : (hostReset s).phase = .idle := rfl
@[simp] theorem hostReset_err (s : State) : (hostReset s).err = .none := rfl
@[simp] theorem hostReset_errInfo (s : State) : (hostReset s).errInfo = none := rfl
@[simp] theorem hostReset_gridW (s : State) : (hostReset s).gridW = none := rfl
@[simp] theorem hostReset_gridH (s : State) : (hostReset s).gridH = none := rfl
@[simp] theorem hostReset_pix (s : State) : (hostReset s).pix = [] := rfl
@[simp] theorem hostReset_fbLen (s : State) : (hostReset s).fbLen = none := rfl
@[simp] theorem hostReset_fb (s : State) : (hostReset s).fb = [] := rfl
@[simp] theorem hostReset_version (s : State) : (hostReset s).version = none := rfl
@[simp] theorem hostReset_dlen (s : State) : (hostReset s).dlen = none := rfl
@[simp] theorem hostReset_inCur (s : State) : (hostReset s).inCur = none := rfl
@[simp] theorem hostReset_outCur (s : State) : (hostReset s).outCur = none := rfl
@[simp] theorem hostReset_ob (s : State) : (hostReset s).ob = [] := rfl
@[simp] theorem hostReset_resultLen (s : State) : (hostReset s).resultLen = none := rfl
@[simp] theorem hostReset_schedule (s : State) : (hostReset s).schedule = s.schedule := rfl

end Sys2Proof.Machine
end

