-- ==== Sys2Proof/Laws/Ops.lean ====
section
/-! SUPPORT. One lemma per shared operation that says what it does; later proofs cite these and do not unfold the operation. -/

namespace Sys2Proof.Machine

/-! ### Outcomes -/

@[simp] theorem answer_ok (s : State) : answer (.ok s) = .next s := rfl
@[simp] theorem answer_error (f : Fault) : answer (.error f) = .fault f := rfl

theorem answer_eq_next {x : Except Fault State} {t : State} : answer x = .next t ↔ x = .ok t := by
  cases x <;> simp [answer]

/-! ### Sequencing of computations that may fault -/

theorem bind_eq_ok {α β : Type} {x : Except Fault α} {f : α → Except Fault β} {b : β} :
    (x >>= f) = .ok b ↔ ∃ a, x = .ok a ∧ f a = .ok b := by
  cases x <;> simp [Bind.bind, Except.bind]

@[simp] theorem ok_bind {α β : Type} (a : α) (f : α → Except Fault β) :
    ((.ok a : Except Fault α) >>= f) = f a := rfl

@[simp] theorem error_bind {α β : Type} (e : Fault) (f : α → Except Fault β) :
    ((.error e : Except Fault α) >>= f) = .error e := rfl

@[simp] theorem pure_eq_ok {α : Type} (a : α) : (pure a : Except Fault α) = .ok a := rfl

@[simp] theorem throw_eq_error {α : Type} (e : Fault) :
    (throw e : Except Fault α) = .error e := rfl

/-! ### Registers -/

@[simp] theorem readReg_some {α : Type} (n : RegName) (v : α) : readReg n (some v) = .ok v := rfl
@[simp] theorem readReg_none {α : Type} (n : RegName) :
    readReg n (none : Option α) = .error (.noValue n) := rfl

theorem readReg_eq_ok {α : Type} {n : RegName} {x : Option α} {v : α} :
    readReg n x = .ok v ↔ x = some v := by
  cases x <;> simp [readReg]

/-! ### Address spaces -/

theorem fb_reads (m : List Host.Cell) (a : Nat) : ∃ v, Memory.read fbUnlisted m a = some v := by
  induction m with
  | nil => exact ⟨0, rfl⟩
  | cons c m ih =>
    obtain ⟨x, w⟩ := c
    unfold Memory.read
    split
    · exact ⟨w, rfl⟩
    · exact ih

/-- A read of FB answers exactly below `FB_LEN`, with the byte of the memory. -/
theorem readFb_eq_ok {s : State} {a : Nat} {v : Byte} :
    readFb s a = .ok v ↔
      ∃ n, s.fbLen = some n ∧ a < n ∧ Memory.read fbUnlisted s.fb a = some v := by
  obtain ⟨w, hw⟩ := fb_reads s.fb a
  unfold readFb
  cases hn : s.fbLen with
  | none => simp
  | some n =>
    by_cases h : a < n <;> simp [h, hw]

/-- A read of FB depends on nothing but FB and its length. -/
theorem readFb_congr {s t : State} (hl : t.fbLen = s.fbLen) (hf : t.fb = s.fb) (a : Nat) :
    readFb t a = readFb s a := by
  simp [readFb, hl, hf]

theorem readCr_congr {s t : State} (hl : t.fbLen = s.fbLen) (hf : t.fb = s.fb) (a : Nat) :
    readCr t a = readCr s a := by
  simp [readCr, readFb_congr hl hf]

theorem readCrPair_congr {s t : State} (hl : t.fbLen = s.fbLen) (hf : t.fb = s.fb) (a : Nat) :
    readCrPair t a = readCrPair s a := by
  simp [readCrPair, readCr_congr hl hf]

/-- A stream of at least 0x8001 bytes answers every read of the first 0x8001. -/
theorem readFb_long {s : State} {n : Nat} (hn : s.fbLen = some n) (hl : Config.minStream ≤ n)
    {a : Nat} (ha : a < Config.minStream) : ∃ v, readFb s a = .ok v := by
  obtain ⟨v, hv⟩ := fb_reads s.fb a
  exact ⟨v, readFb_eq_ok.2 ⟨n, hn, by omega, hv⟩⟩

/-- A stream of at least 0x8001 bytes answers every read of the code region. -/
theorem readCr_long {s : State} {n : Nat} (hn : s.fbLen = some n) (hl : Config.minStream ≤ n)
    {i : Nat} (hi : i < Config.codeLen) : ∃ v, readCr s i = .ok v := by
  unfold readCr
  rw [if_pos hi]
  exact readFb_long hn hl (by
    simp only [Config.minStream, Config.codeBase, Config.codeLen] at *
    omega)

@[simp] theorem readOb_eq_ok {s : State} {a : Nat} {v : Byte} :
    readOb s a = .ok v ↔ Memory.read obUnlisted s.ob a = some v := by
  unfold readOb
  cases h : Memory.read obUnlisted s.ob a <;> simp

/-- A write of OB answers exactly below `DLEN`, and changes that one position. -/
theorem writeOb_eq_ok {s t : State} {a : Nat} {v : Byte} :
    writeOb s a v = .ok t ↔ ∃ d, s.dlen = some d ∧ a < d.toNat ∧ t = s.setOb a v := by
  unfold writeOb
  cases hd : s.dlen with
  | none => simp
  | some d =>
    by_cases h : a < d.toNat <;> simp [h, eq_comm]

/-! ### Tokens -/

/-- When a token runs, and with which numbers. -/
theorem tokenContext_eq_ok {s : State} {t : TokenContext} :
    tokenContext s = .ok t ↔
      ∃ (i : InCursor) (o d : OutCursor), s.inCur = some i ∧ s.outCur = some o ∧ s.dlen = some d ∧
        s.phase = .decode ∧ o.toNat < d.toNat ∧ i.toNat < Config.codeLen ∧
        t = ⟨i.toNat, o.toNat, d.toNat⟩ := by
  unfold tokenContext
  cases hi : s.inCur <;> cases ho : s.outCur <;> cases hd : s.dlen <;> simp
  next i o d =>
    by_cases h : s.phase = .decode ∧ o.toNat < d.toNat ∧ i.toNat < Config.codeLen
    · simp [h, eq_comm]
    · simp only [h, if_false]
      constructor
      · intro hc; cases hc
      · rintro ⟨h1, h2, h3, -⟩
        exact absurd ⟨h1, h2, h3⟩ h

/-- What emitting one byte leaves: the byte, and both cursors advanced. -/
theorem emitByte_eq_ok {s t : State} {c : TokenContext} {v : Byte} {n : Nat} :
    emitByte s c v n = .ok t ↔ ∃ d, s.dlen = some d ∧ c.outCur < d.toNat ∧
      t = ((s.setOb c.outCur v).setOutCur (c.outCur + 1)).setInCur (c.inCur + n) := by
  unfold emitByte
  simp only [bind_eq_ok, pure_eq_ok, writeOb_eq_ok, Except.ok.injEq]
  constructor
  · rintro ⟨_, ⟨d, hd, hlt, rfl⟩, rfl⟩
    exact ⟨d, hd, hlt, rfl⟩
  · rintro ⟨d, hd, hlt, rfl⟩
    exact ⟨_, ⟨d, hd, hlt, rfl⟩, rfl⟩

/-- The copy changes nothing but OB. -/
theorem copyBytes_only_ob {n src dst : Nat} {s t : State} (h : copyBytes n src dst s = .ok t) :
    t = { s with ob := t.ob } := by
  induction n generalizing src dst s with
  | zero => cases h; rfl
  | succ n ih =>
    simp only [copyBytes, bind_eq_ok, writeOb_eq_ok] at h
    obtain ⟨v, -, _, ⟨d, -, -, rfl⟩, h⟩ := h
    rw [ih h]
    rfl

/-- The copy keeps the canonical form of OB. -/
theorem copyBytes_wf {n src dst : Nat} {s t : State} (h : copyBytes n src dst s = .ok t)
    (hs : Memory.wf obUnlisted s.ob = true) : Memory.wf obUnlisted t.ob = true := by
  induction n generalizing src dst s with
  | zero => cases h; exact hs
  | succ n ih =>
    simp only [copyBytes, bind_eq_ok, writeOb_eq_ok] at h
    obtain ⟨v, -, _, ⟨d, -, -, rfl⟩, h⟩ := h
    exact ih h (Memory.wf_write _ _ hs _ _)

/-- The copy leaves every position outside its destination as it was. -/
theorem copyBytes_frame {n src dst : Nat} {s t : State} (h : copyBytes n src dst s = .ok t)
    (hs : Memory.wf obUnlisted s.ob = true) {a : Nat} (ha : a < dst ∨ dst + n ≤ a) :
    Memory.read obUnlisted t.ob a = Memory.read obUnlisted s.ob a := by
  induction n generalizing src dst s with
  | zero => cases h; rfl
  | succ n ih =>
    simp only [copyBytes, bind_eq_ok, writeOb_eq_ok] at h
    obtain ⟨v, -, _, ⟨d, -, -, rfl⟩, h⟩ := h
    rw [ih h (Memory.wf_write _ _ hs _ _) (by omega)]
    simp only [State.setOb, Memory.read_write _ _ hs]
    rw [if_neg (by omega)]

/-- Each copied position holds what its source position holds after the copy: the overlap, read upward. -/
theorem copyBytes_value {n src dst : Nat} {s t : State} (h : copyBytes n src dst s = .ok t)
    (hs : Memory.wf obUnlisted s.ob = true) (hlt : src < dst) {k : Nat} (hk : k < n) :
    Memory.read obUnlisted t.ob (dst + k) = Memory.read obUnlisted t.ob (src + k) := by
  induction n generalizing src dst s k with
  | zero => omega
  | succ n ih =>
    simp only [copyBytes, bind_eq_ok, writeOb_eq_ok, readOb_eq_ok] at h
    obtain ⟨v, hv, _, ⟨d, -, -, rfl⟩, h⟩ := h
    have hs' := Memory.wf_write obUnlisted _ hs dst v
    cases k with
    | zero =>
      rw [copyBytes_frame h hs' (by omega), copyBytes_frame h hs' (by omega)]
      simp only [State.setOb, Memory.read_write _ _ hs, Nat.add_zero, if_true]
      rw [if_neg (by omega), hv]
    | succ k =>
      have := ih h hs' (by omega) (k := k) (by omega)
      rwa [show dst + 1 + k = dst + (k + 1) by omega,
        show src + 1 + k = src + (k + 1) by omega] at this

/-- The copy completes where its sources below the destination hold bytes and its destination lies below `DLEN`. -/
theorem copyBytes_completes {n src dst : Nat} {s : State} {d : OutCursor} (hd : s.dlen = some d)
    (hs : Memory.wf obUnlisted s.ob = true) (hlt : src < dst) (hend : dst + n ≤ d.toNat)
    (hsrc : ∀ a, src ≤ a → a < dst → Memory.read obUnlisted s.ob a ≠ none) :
    ∃ t, copyBytes n src dst s = .ok t := by
  induction n generalizing src dst s with
  | zero => exact ⟨s, rfl⟩
  | succ n ih =>
    obtain ⟨v, hv⟩ := Option.ne_none_iff_exists'.1 (hsrc src (Nat.le_refl _) hlt)
    have hs' := Memory.wf_write obUnlisted _ hs dst v
    obtain ⟨t, ht⟩ := ih (src := src + 1) (dst := dst + 1) (s := s.setOb dst v) hd hs'
      (by omega) (by omega) (fun a h1 h2 => by
        simp only [State.setOb, Memory.read_write _ _ hs]
        split
        · simp
        · exact hsrc a (by omega) (by omega))
    refine ⟨t, ?_⟩
    simp only [copyBytes, bind_eq_ok, writeOb_eq_ok, readOb_eq_ok]
    exact ⟨v, hv, _, ⟨d, hd, by omega, rfl⟩, ht⟩

/-! ### EXTRACT -/

/-- What the packed cells read at every address. -/
theorem read_packCells (pix : List Pixel) (p a : Nat) :
    Memory.read fbUnlisted (packCells p pix) a =
      if a < p then fbUnlisted else (((pix[a - p]?).map pack).orElse fun _ => fbUnlisted) := by
  induction pix generalizing p with
  | nil => simp [packCells, Memory.read]
  | cons px pix ih =>
    unfold packCells
    have step : ∀ b, p < b → (px :: pix)[b - p]? = pix[b - (p + 1)]? := fun b hb => by
      rw [show b - p = (b - (p + 1)) + 1 by omega, List.getElem?_cons_succ]
    split
    · next h =>
      rw [ih]
      rcases Nat.lt_trichotomy a p with hc | hc | hc
      · rw [if_pos (by omega), if_pos hc]
      · subst hc; simp [h]
      · rw [if_neg (by omega), if_neg (by omega), step a hc]
    · next h =>
      rw [Memory.read]
      rcases Nat.lt_trichotomy a p with hc | hc | hc
      · rw [if_neg (by omega), if_pos hc, ih, if_pos (by omega)]
      · subst hc; simp
      · rw [if_neg (by omega), if_neg (by omega), ih, if_neg (by omega), step a hc]

/-- The packed cells lie at the addresses of their pixels. -/
theorem packCells_range (pix : List Pixel) (p : Nat) :
    ∀ c ∈ packCells p pix, p ≤ c.1 ∧ c.1 < p + pix.length := by
  induction pix generalizing p with
  | nil => simp [packCells]
  | cons px pix ih =>
    intro c hc
    unfold packCells at hc
    split at hc
    · have := ih (p + 1) c hc
      simp only [List.length_cons]; omega
    · rcases List.mem_cons.1 hc with rfl | hc
      · simp
      · have := ih (p + 1) c hc
        simp only [List.length_cons]; omega

/-- EXTRACT leaves FB in canonical form. -/
theorem packCells_wf (pix : List Pixel) (p : Nat) :
    Memory.wf fbUnlisted (packCells p pix) = true := by
  induction pix generalizing p with
  | nil => rfl
  | cons px pix ih =>
    unfold packCells
    split
    · exact ih _
    · exact (Memory.wf_cons ..).2 ⟨‹_›, fun c hc => (packCells_range _ _ c hc).1, ih _⟩

end Sys2Proof.Machine
end

