-- ==== Sys2Proof/Laws/PerInstr.lean ====
section
/-! SUPPORT. Families of statements about instructions as syntax, one lemma per constructor. -/

namespace Sys2Proof.Laws

/-- The kind of an instruction. -/
def kindOf : Instr → TokenKind
  | .esc _ => .esc
  | .sym _ => .sym
  | .bref _ _ => .bref

namespace EncodedForm

/-- The encoding of a well-formed instruction begins with a control byte of its own kind and has the length that byte
announces, which is the instruction's (30_encoding.md R71, R72). -/
def Statement (i : Instr) : Prop :=
  i.wellFormed = true → ∃ c rest, encode i = c :: rest ∧ tokenKind c = kindOf i ∧
    (encode i).length = tokenLength (tokenKind c) ∧ (encode i).length = i.byteLength

theorem esc (v : Byte) : Statement (.esc v) :=
  fun _ => ⟨0x00, [v], rfl, rfl, rfl, rfl⟩

theorem sym (idx : SymIndex) : Statement (.sym idx) := fun h => by
  rw [wellFormed_sym_iff] at h
  have hk : tokenKind (BitVec.ofNat 8 idx.toNat) = .sym := by
    rw [tokenKind_sym_iff, BitVec.toNat_ofNat]
    omega
  exact ⟨_, [], rfl, hk, by rw [hk]; rfl, rfl⟩

theorem bref (offset : RefOffset) (length : RefLength) : Statement (.bref offset length) := fun h => by
  rw [wellFormed_bref_iff] at h
  have hk : tokenKind (BitVec.ofNat 8 (Config.brefBase + offset.toNat >>> 4)) = .bref := by
    rw [tokenKind_bref_iff, BitVec.toNat_ofNat, Nat.shiftRight_eq_div_pow]
    simp only [Config.brefBase]
    omega
  exact ⟨_, _, rfl, hk, by rw [hk]; rfl, rfl⟩

end EncodedForm

end Sys2Proof.Laws
end

