-- ==== Sys2Proof/Laws/Step.lean ====
section
/-! SUPPORT. What a step can do, said once for each token, each stage and the DECODE loop: "if it answers next, then one of
these". Invariants and frames are derived from these and do not unfold the meanings. -/

namespace Sys2Proof.Machine

/-! ### Tokens -/

theorem execEsc_cases {v : Byte} {s t : State} (h : execEsc v s = .next t) :
    ∃ c, tokenContext s = .ok c ∧
      ((c.straddles = true ∧ t = s.straddle) ∨
       (c.straddles = false ∧
        t = ((s.setOb c.outCur v).setOutCur (c.outCur + 1)).setInCur (c.inCur + 2))) := by
  simp only [execEsc, answer_eq_next, bind_eq_ok, pure_eq_ok] at h
  obtain ⟨c, hc, h⟩ := h
  refine ⟨c, hc, ?_⟩
  split at h
  · next hs => exact .inl ⟨hs, by cases h; rfl⟩
  · next hs =>
    obtain ⟨d, -, -, rfl⟩ := emitByte_eq_ok.1 h
    exact .inr ⟨by simpa using hs, rfl⟩

theorem execSym_cases {idx : SymIndex} {s t : State} (h : execSym idx s = .next t) :
    ∃ c, tokenContext s = .ok c ∧
      t = ((s.setOb c.outCur (readSym s idx)).setOutCur (c.outCur + 1)).setInCur (c.inCur + 1) := by
  simp only [execSym, answer_eq_next, bind_eq_ok] at h
  obtain ⟨c, hc, h⟩ := h
  obtain ⟨d, -, -, rfl⟩ := emitByte_eq_ok.1 h
  exact ⟨c, hc, rfl⟩

theorem execBref_cases {offset : RefOffset} {length : RefLength} {s t : State}
    (h : execBref offset length s = .next t) :
    ∃ c, tokenContext s = .ok c ∧
      ((c.straddles = true ∧ t = s.straddle) ∨
       (c.straddles = false ∧ c.badOffset offset = true ∧
        t = (s.setInCur (c.inCur + 1)).raise s .badReference (.reference offset length)) ∨
       (c.straddles = false ∧ c.badOffset offset = false ∧
        ∃ u, copyBytes (c.count length) (c.source offset) c.outCur s = .ok u ∧
          t = (u.setOutCur (c.outCur + c.count length)).setInCur (c.inCur + 2))) := by
  simp only [execBref, answer_eq_next, bind_eq_ok, pure_eq_ok] at h
  obtain ⟨c, hc, h⟩ := h
  refine ⟨c, hc, ?_⟩
  split at h
  · next hs => exact .inl ⟨hs, by cases h; rfl⟩
  · next hs =>
    split at h
    · next hb => exact .inr (.inl ⟨by simpa using hs, hb, by cases h; rfl⟩)
    · next hb =>
      obtain ⟨u, hu, h⟩ := bind_eq_ok.1 h
      exact .inr (.inr ⟨by simpa using hs, by simpa using hb, u, hu, by cases h; rfl⟩)

/-! ### Stages -/

theorem stepExtract_eq_ok {s t : State} : stepExtract s = .ok t ↔
    ∃ w h, s.gridW = some w ∧ s.gridH = some h ∧ s.pix.length = w * h ∧
      t = { s with fbLen := some (w * h), fb := packCells 0 s.pix, phase := .split } := by
  simp only [stepExtract, bind_eq_ok, readReg_eq_ok, pure_eq_ok]
  constructor
  · rintro ⟨w, hw, h, hh, hx⟩
    split at hx
    · next hl => exact ⟨w, h, hw, hh, hl, by cases hx; rfl⟩
    · cases hx
  · rintro ⟨w, h, hw, hh, hl, rfl⟩
    exact ⟨w, hw, h, hh, by rw [if_pos hl]⟩

theorem stepSplit_eq_ok {s t : State} : stepSplit s = .ok t ↔
    ∃ n, s.fbLen = some n ∧
      ((n < Config.minStream ∧ t = s.raise s .outOfRange (.streamLength n)) ∨
       (Config.minStream ≤ n ∧ ∃ v, readFb s Config.versionAddr = .ok v ∧
        t = { s with version := some v, phase := .gate })) := by
  simp only [stepSplit, bind_eq_ok, readReg_eq_ok, pure_eq_ok]
  constructor
  · rintro ⟨n, hn, hx⟩
    refine ⟨n, hn, ?_⟩
    split at hx
    · exact .inl ⟨‹_›, by cases hx; rfl⟩
    · obtain ⟨v, hv, hx⟩ := bind_eq_ok.1 hx
      exact .inr ⟨by omega, v, hv, by cases hx; rfl⟩
  · rintro ⟨n, hn, ⟨hl, rfl⟩ | ⟨hl, v, hv, rfl⟩⟩
    · exact ⟨n, hn, by rw [if_pos hl]⟩
    · exact ⟨n, hn, by rw [if_neg (by omega), hv]; rfl⟩

theorem stepGate_eq_ok {s t : State} : stepGate s = .ok t ↔
    ∃ v, s.version = some v ∧
      ((v ∉ Config.versionsOk ∧ t = s.raise s .unsupportedVersion (.versionByte v)) ∨
       (v ∈ Config.versionsOk ∧ ∃ d, readCrPair s Config.dlenAddr = .ok d ∧
        t = s.openDecode d)) := by
  simp only [stepGate, bind_eq_ok, readReg_eq_ok, pure_eq_ok]
  constructor
  · rintro ⟨v, hv, hx⟩
    refine ⟨v, hv, ?_⟩
    split at hx
    · obtain ⟨d, hd, hx⟩ := bind_eq_ok.1 hx
      exact .inr ⟨‹_›, d, hd, by cases hx; rfl⟩
    · exact .inl ⟨‹_›, by cases hx; rfl⟩
  · rintro ⟨v, hv, ⟨hl, rfl⟩ | ⟨hl, d, hd, rfl⟩⟩
    · exact ⟨v, hv, by rw [if_neg hl]⟩
    · exact ⟨v, hv, by rw [if_pos hl, hd]; rfl⟩

/-! ### The DECODE loop -/

/-- What is fetched: the control byte, and the second byte of a two-byte token where the region holds it. -/
theorem fetchBytes_eq_ok {s : State} {n : Nat} {bytes : List Byte} :
    fetchBytes s n = .ok bytes ↔ ∃ c, readCr s n = .ok c ∧
      if tokenLength (tokenKind c) = 2 ∧ n + 1 < Config.codeLen then
        ∃ b, readCr s (n + 1) = .ok b ∧ bytes = [c, b]
      else bytes = [c] := by
  simp only [fetchBytes, bind_eq_ok, pure_eq_ok]
  refine exists_congr fun c => and_congr_right fun _ => ?_
  split
  · simp only [bind_eq_ok, Except.ok.injEq, eq_comm (a := bytes)]
  · simp only [Except.ok.injEq, eq_comm (a := bytes)]

/-- The fetch never reads beyond the byte after the control byte, and decodes to a well-placed token or a straddle. -/
theorem loopMove_cases {s : State} {m : LoopMove} (h : loopMove s = .ok m) :
    ∃ (o d : OutCursor) (i : InCursor),
      s.outCur = some o ∧ s.dlen = some d ∧ s.inCur = some i ∧
      ((d.toNat ≤ o.toNat ∧ m = .full) ∨
       (o.toNat < d.toNat ∧ Config.codeLen ≤ i.toNat ∧ m = .spent) ∨
       (o.toNat < d.toNat ∧ i.toNat < Config.codeLen ∧ Config.codeLen ≤ i.toNat + 1 ∧
        m = .straddle) ∨
       (o.toNat < d.toNat ∧ i.toNat < Config.codeLen ∧ ∃ bytes instr,
        fetchBytes s i.toNat = .ok bytes ∧ decode bytes = .ok (instr, []) ∧
        m = .token instr)) := by
  simp only [loopMove, bind_eq_ok, readReg_eq_ok, pure_eq_ok] at h
  obtain ⟨o, ho, d, hd, i, hi, h⟩ := h
  refine ⟨o, d, i, ho, hd, hi, ?_⟩
  split at h
  · exact .inl ⟨‹_›, by cases h; rfl⟩
  · split at h
    · exact .inr (.inl ⟨by omega, ‹_›, by cases h; rfl⟩)
    · obtain ⟨bytes, hb, h⟩ := bind_eq_ok.1 h
      obtain ⟨c, hc, hbytes⟩ := fetchBytes_eq_ok.1 hb
      by_cases htwo : tokenLength (tokenKind c) = 2
      · by_cases hin : i.toNat + 1 < Config.codeLen
        · rw [if_pos ⟨htwo, hin⟩] at hbytes
          obtain ⟨b, -, rfl⟩ := hbytes
          refine .inr (.inr (.inr ⟨by omega, by omega, ?_⟩))
          cases hk : tokenKind c with
          | esc =>
            simp only [decode, hk] at h
            cases h
            exact ⟨_, _, hb, by simp [decode, hk], rfl⟩
          | bref =>
            simp only [decode, hk] at h
            cases h
            exact ⟨_, _, hb, by simp [decode, hk], rfl⟩
          | sym => simp [hk, tokenLength] at htwo
        · rw [if_neg (by simp [hin])] at hbytes
          subst hbytes
          refine .inr (.inr (.inl ⟨by omega, by omega, by omega, ?_⟩))
          cases hk : tokenKind c with
          | esc => simp only [decode, hk] at h; cases h; rfl
          | bref => simp only [decode, hk] at h; cases h; rfl
          | sym => simp [hk, tokenLength] at htwo
      · rw [if_neg (by simp [htwo])] at hbytes
        subst hbytes
        have hk : tokenKind c = .sym := by
          cases hk : tokenKind c <;> simp [hk, tokenLength] at htwo ⊢
        simp only [decode, hk] at h
        cases h
        exact .inr (.inr (.inr ⟨by omega, by omega, _, _, hb, by simp [decode, hk], rfl⟩))

/-- A BREF that the loop is about to run is the one whose two bytes stand at IN_CUR and IN_CUR + 1. -/
theorem loopMove_bref {s : State} {offset : RefOffset} {length : RefLength}
    (h : loopMove s = .ok (.token (.bref offset length))) :
    ∃ (i : InCursor) (c b : Byte), s.inCur = some i ∧ readCr s i.toNat = .ok c ∧
      readCr s (i.toNat + 1) = .ok b ∧ 0x3C ≤ c.toNat ∧ offset = brefOffset c b ∧
      length = brefLength b := by
  obtain ⟨-, -, i, -, -, hi, ⟨-, hm⟩ | ⟨-, -, hm⟩ | ⟨-, -, -, hm⟩ |
    ⟨-, -, bytes, instr, hf, hdec, hm⟩⟩ := loopMove_cases h
  · cases hm
  · cases hm
  · cases hm
  · cases hm
    obtain ⟨c, hc, hb⟩ := fetchBytes_eq_ok.1 hf
    rcases decode_cases hdec with ⟨_, _, -, -, h⟩ | ⟨_, -, -, h⟩ | ⟨c', b, rfl, hk, h⟩
    · cases h
    · cases h
    · cases h
      split at hb
      · obtain ⟨b', hb', heq⟩ := hb
        cases heq
        exact ⟨i, c, b, hi, hc, hb', tokenKind_bref_iff.1 hk, rfl, rfl⟩
      · cases hb

/-- What one DECODE step can do. -/
theorem stepDecode_cases {s t : State} (h : stepDecode s = .next t) :
    ∃ m, loopMove s = .ok m ∧
      ((m = .full ∧ t = s.complete) ∨ (m = .spent ∧ t = s.exhaust) ∨
       (m = .straddle ∧ t = s.straddle) ∨ ∃ i, m = .token i ∧ exec i s = .next t) := by
  unfold stepDecode at h
  split at h
  · cases h
  · exact ⟨_, ‹_›, .inl ⟨rfl, by cases h; rfl⟩⟩
  · exact ⟨_, ‹_›, .inr (.inl ⟨rfl, by cases h; rfl⟩)⟩
  · exact ⟨_, ‹_›, .inr (.inr (.inl ⟨rfl, by cases h; rfl⟩))⟩
  · exact ⟨_, ‹_›, .inr (.inr (.inr ⟨_, rfl, h⟩))⟩

/-- What one step of the sequencer can do. -/
theorem sequencerStep_cases {s t : State} (h : sequencerStep s = .next t) :
    (s.phase = .extract ∧ stepExtract s = .ok t) ∨ (s.phase = .split ∧ stepSplit s = .ok t) ∨
    (s.phase = .gate ∧ stepGate s = .ok t) ∨ (s.phase = .decode ∧ stepDecode s = .next t) := by
  unfold sequencerStep at h
  split at h <;> simp_all [answer_eq_next]

/-- What one step of the machine can do: a step of the sequencer, or a host command taken. -/
theorem step_cases {s t : State} (h : step s = .next t) :
    (s.schedule = [] ∧ sequencerStep s = .next t) ∨
    (∃ ts, s.schedule = .sequencer :: ts ∧ sequencerStep (s.setSchedule ts) = .next t) ∨
    (∃ ts, s.schedule = .host .reset :: ts ∧ t = hostReset (s.setSchedule ts)) ∨
    ∃ ts w h pix, s.schedule = .host (.start w h pix) :: ts ∧ s.busy = false ∧
      pix.length = w * h ∧ t = (s.setSchedule ts).begin w h pix := by
  unfold step at h
  split at h
  · exact .inl ⟨‹_›, h⟩
  · exact .inr (.inl ⟨_, ‹_›, h⟩)
  · next cmd ts hs =>
    cases cmd with
    | reset => exact .inr (.inr (.inl ⟨_, hs, by cases h; rfl⟩))
    | start w hh pix =>
      simp only [hostCommand, hostStart] at h
      split at h
      · cases h
      · split at h
        · next hb hl =>
          exact .inr (.inr (.inr ⟨_, w, hh, pix, hs, by simpa [State.busy] using hb, hl,
            by cases h; rfl⟩))
        · cases h

end Sys2Proof.Machine
end

