-- ==== Sys2Proof/Tests/Slice0.lean ====
section
/-! SUPPORT. Small tests of the model against the worked examples and vectors of spec/95_test_vectors.md, the smoke tests of
well-formedness, and for every statement with hypotheses a witness that meets them all. -/

namespace Sys2Proof.Tests

open Sys2Proof Sys2Proof.Machine

/-! ### Helpers -/

/-- The next state of an outcome, if it is one. -/
def stateOf : Host.Outcome State Fault Refusal → Option State
  | .next s => some s
  | .fault _ => none
  | .refused _ => none

/-- A table that meets H_SYM12 and the duplicate of R99. -/
def demoParams (strict : Bool) : Params where
  symbolTable := Vector.ofFn fun i => if i.val = 41 then 0x2F else BitVec.ofNat 8 (i.val + 0x2F)
  strict := strict

/-- The bytes of OB from position `a` on, as cells. -/
def obCells : Nat → List Byte → List Host.Cell
  | _, [] => []
  | a, v :: rest => (a, v) :: obCells (a + 1) rest

/-- A state about to run the bytes `tokens` at IN_CUR = `i`, with the output `out` behind it. -/
def demo (strict : Bool) (i : InCursor) (d : OutCursor) (out tokens : List Byte) : State :=
  ({ State.reset with
    params := demoParams strict
    phase := .decode
    gridW := some 0x8001
    gridH := some 1
    fbLen := some 0x8001
    version := some 1
    dlen := some d
    inCur := some i
    outCur := some (BitVec.ofNat 16 out.length)
    ob := obCells 0 out } : State).placeFb 0x4304 [d.extractLsb' 8 8, d.extractLsb' 0 8]
    |>.placeFb 0x8000 [1]
    |>.placeFb (0x4300 + i.toNat) tokens

/-- The demo state as an operation in another phase. -/
def demoIn (p : Phase) (strict : Bool) (i : InCursor) (d : OutCursor) (out tokens : List Byte) : State :=
  { demo strict i d out tokens with phase := p }

/-- Just after `ESC 'a'`, with the tokens that follow it. -/
def afterA (d : OutCursor) (tokens : List Byte) : State := demo false 10 d [0x61] tokens

/-- Spent input with one byte of output. -/
def spent (strict : Bool) : State := demo strict 0x3D00 5 [0x61] []

/-- An operation that has ended in DONE with the text "a". -/
def ended : State := { demoIn .done false 10 1 [0x61] [] with resultLen := some 1 }

/-- The grid of V10: W = 3, H = 2, PIX(x, y) = (0, 0, y, x). -/
def gridV10 : List Pixel :=
  [⟨0, 0, 0, 0⟩, ⟨0, 0, 0, 1⟩, ⟨0, 0, 0, 2⟩, ⟨0, 0, 1, 0⟩, ⟨0, 0, 1, 1⟩, ⟨0, 0, 1, 2⟩]

/-- A state about to extract the grid of V10. -/
def extracting : State := State.reset.begin 3 2 gridV10

/-- A state in SPLIT with a stream of `n` bytes. -/
def splitting (n : Nat) : State :=
  { State.reset with
    phase := .split, gridW := some n, gridH := some 1, fbLen := some n }

/-- A state in GATE with a version byte and the header bytes of V13. -/
def gating (v : Byte) : State :=
  ({ State.reset with
    phase := .gate
    gridW := some 0x8001
    gridH := some 1
    fbLen := some 0x8001
    version := some v } : State).placeFb 0x4304 [0x01, 0x02] |>.placeFb 0x8000 [v]

/-! ### Well-formedness and decoding -/

/-- SYM indices 0 and 60 have no encoding (R63, R73), nor have 3136 as an offset (R68) and 1 and 18 as lengths (R69). -/
theorem test_ill_formed_refused :
    (Instr.sym 0).wellFormed = false ∧ (Instr.sym 60).wellFormed = false ∧
    (Instr.bref 3136 2).wellFormed = false ∧ (Instr.bref 1 1).wellFormed = false ∧
    (Instr.bref 1 18).wellFormed = false := by decide

theorem test_bounds_well_formed :
    (Instr.sym 1).wellFormed = true ∧ (Instr.sym 59).wellFormed = true ∧
    (Instr.bref 0 2).wellFormed = true ∧ (Instr.bref 3135 17).wellFormed = true := by decide

/-- V14 and V17: `00 3C` is an ESC of 0x3C, not a BREF. -/
theorem test_decode_esc : decode [0x00, 0x3C] = .ok (.esc 0x3C, []) := by decide

/-- V15: `29` is SYM 41, `3B` the largest symbol. -/
theorem test_decode_sym :
    decode [0x29] = .ok (.sym 41, []) ∧ decode [0x3B] = .ok (.sym 59, []) := by decide

/-- V16: rows of the field table. -/
theorem test_decode_bref :
    decode [0x3C, 0x00] = .ok (.bref 0 2, []) ∧ decode [0x3D, 0xF0] = .ok (.bref 16 17, []) ∧
    decode [0x40, 0x52] = .ok (.bref 66 7, []) ∧ decode [0x80, 0x00] = .ok (.bref 1088 2, []) ∧
    decode [0xFF, 0xFF] = .ok (.bref 3135 17, []) := by decide

/-- The table's numbering: the control byte is bits 7..0, the second byte bits 15..8. -/
theorem test_decode_table_words :
    decodeTableWord 16 0x4100 = some (.esc 0x41) ∧ decodeTableWord 8 0x29 = some (.sym 41) ∧
    decodeTableWord 16 0x413C = some (.bref 1 6) := by decide

/-- P2's program in the notation of R74 and R75. -/
theorem test_assemble_p2 :
    assemble [.hdr 12, .text ['a', 'b'], .token (.bref 2 5), .token (.bref 1 3), .token (.bref 10 2)] =
      some [0x00, 0x00, 0x00, 0x00, 0x00, 0x0C, 0x00, 0x00, 0x00, 0x61, 0x00, 0x62,
        0x3C, 0x32, 0x3C, 0x11, 0x3C, 0x0A] := by decide

/-- P3: COPY 3, 37 is BREF 3,17; BREF 3,17; BREF 3,3. -/
theorem test_copy_p3 : copyTokens 3 37 = some [.bref 3 17, .bref 3 17, .bref 3 3] := by decide

/-! ### Tokens -/

/-- §8 item 8 of the source: `00 41` emits 'A' (R97's example). -/
theorem test_esc_emits :
    ((stateOf (step (demo false 8 3 [] [0x00, 0x41]))).map fun t => (t.ob, t.outCur, t.inCur)) =
      some ([(0, 0x41)], some 1, some 10) := by decide

/-- V13: an ESC straddling the end of the region writes nothing. -/
theorem test_esc_straddles :
    ((stateOf (step (demo false 0x3CFF 3 [] [0x00]))).map fun t => (t.ob, t.outCur, t.inCur, t.phase)) =
      some ([], some 0, some 0x3D00, .decode) := by decide

/-- V15 under H_SYM12: `01` emits '0'. -/
theorem test_sym_one :
    ((stateOf (step (demo false 8 3 [] [0x01]))).map fun t => (t.ob, t.outCur, t.inCur)) =
      some ([(0, 0x30)], some 1, some 9) := by decide

/-- V13: a SYM in the last byte of the region is no straddle. -/
theorem test_sym_last_byte :
    ((stateOf (step (demo false 0x3CFF 3 [] [0x02]))).map fun t => (t.ob, t.inCur)) =
      some ([(0, 0x31)], some 0x3D00) := by decide

/-- §8 item 3 of the source: offset 1, length 6 after "a" gives "aaaaaaa". -/
theorem test_bref_overlap :
    ((stateOf (step (afterA 7 [0x3C, 0x41]))).map fun t => (t.ob.map Prod.snd, t.outCur, t.inCur)) =
      some ([0x61, 0x61, 0x61, 0x61, 0x61, 0x61, 0x61], some 7, some 12) := by decide

/-- V17 and P5: BREF 2,2 at OUT_CUR = 1 is BAD_REFERENCE with (DECODE, 10, 1, (2, 2)), and OB is not written. -/
theorem test_bref_bad_reference :
    ((stateOf (step (afterA 5 [0x3C, 0x02]))).map fun t => (t.phase, t.err, t.errInfo, t.ob)) =
      some (.error, .badReference, some ⟨.decode, some 10, some 1, .reference 2 2⟩, [(0, 0x61)]) := by
  decide

/-! ### Stages -/

/-- §8 item 7 of the source and V9: PACK. -/
theorem test_pack :
    pack ⟨0xFF, 0xFE, 0x01, 0x00⟩ = 0xE4 ∧ pack ⟨0x12, 0x37, 0x80, 0x6D⟩ = 0xB1 ∧
    pack ⟨0xFC, 0xFC, 0xFC, 0xFC⟩ = 0x00 := by decide

/-- V10: FB = [00, 01, 02, 04, 05, 06]; the zero byte is the unlisted one. -/
theorem test_extract_v10 :
    ((stateOf (step extracting)).map fun t => (t.fbLen, t.fb, t.phase)) =
      some (some 6, [(1, 0x01), (2, 0x02), (3, 0x04), (4, 0x05), (5, 0x06)], .split) := by decide

/-- V11: 0x8000 bytes are one short. -/
theorem test_split_short :
    ((stateOf (step (splitting 0x8000))).map fun t => (t.err, t.errInfo)) =
      some (.outOfRange, some ⟨.split, none, none, .streamLength 32768⟩) := by decide

/-- V12: DECODE_ADDR at the boundaries. -/
theorem test_decode_addr :
    decodeAddr 0x1FFF = some (.gfx, 0x1FFF) ∧ decodeAddr 0x2000 = some (.map, 0) ∧
    decodeAddr 0x42FF = some (.sfx, 0x10FF) ∧ decodeAddr 0x4305 = some (.code, 5) ∧
    decodeAddr 0x7FFF = some (.code, 0x3CFF) ∧ decodeAddr 0x8000 = some (.version, 0) ∧
    decodeAddr 0x8001 = none := by decide

/-- V13: `01 02` in CR bytes 4 and 5 is DLEN = 258. -/
theorem test_gate_big_endian :
    ((stateOf (step (gating 5))).map fun t => (t.dlen, t.inCur, t.outCur, t.phase)) =
      some (some 258, some 8, some 0, .decode) := by decide

/-- V13: version 4 is UNSUPPORTED_VERSION, and DLEN stays ⊥. -/
theorem test_gate_version_four :
    ((stateOf (step (gating 4))).map fun t => (t.err, t.errInfo, t.dlen)) =
      some (.unsupportedVersion, some ⟨.gate, none, none, .versionByte 4⟩, none) := by decide

/-- V13: spent input under each STRICT. -/
theorem test_exhaustion :
    ((stateOf (step (spent false))).map fun t => (t.phase, t.resultLen)) =
      some (.truncated, some 1) ∧
    ((stateOf (step (spent true))).map fun t => (t.err, t.errInfo)) =
      some (.truncatedInput, some ⟨.decode, some 0x3D00, some 1, .noValue⟩) := by decide

/-- V13: the output-full test comes before the input-spent test. -/
theorem test_full_before_spent :
    ((stateOf (step (demo false 0x3D00 1 [0x61] []))).map fun t => (t.phase, t.resultLen)) =
      some (.done, some 1) := by decide

/-- The host reads "a" after DONE, nothing beyond it, and the version view. -/
theorem test_host_reads :
    hostText ended = some [0x61] ∧ hostTextByte ended 1 = none ∧
    hostRegion ended .version 0 = some 1 ∧ hostText { ended with phase := .error } = none := by
  decide

/-- A placed word is the first instruction after reset. -/
theorem test_fetch_word_runs :
    (stateOf (step (State.reset.withFetchWord 16 0x4100))).map (fun t => t.ob) = some [(0, 0x41)] ∧
    step (State.reset.withFetchWord 8 0x29) = exec (.sym 41) (State.reset.withFetchWord 8 0x29) ∧
    step (State.reset.withFetchWord 16 0x413C) =
      exec (.bref 1 6) (State.reset.withFetchWord 16 0x413C) :=
  ⟨by decide, rfl, rfl⟩

/-! ### Witnesses: concrete states that meet the hypotheses of the statements -/

/-- The demo states meet the token precondition. -/
theorem afterA_at_token : (afterA 7 [0x3C, 0x41]).AtToken 10 1 7 :=
  ⟨rfl, rfl, rfl, rfl, by decide, by decide⟩

/-- The state after "a" meets the invariant. -/
theorem afterA_inv (tokens : List Byte) (h : tokens = [0x3C, 0x41] ∨ tokens = [0x3C, 0x02]) :
    (afterA 7 tokens).Inv := by
  rcases h with rfl | rfl
  all_goals exact {
    fbForm := by decide
    fbInside := fun c hc => ⟨0x8001, rfl, by revert c; decide⟩
    obForm := by decide
    errOnlyInError := by decide
    infoOnlyWithErr := by decide
    resultOnlyAtEnd := by decide
    atIdle := fun h => by cases h
    atExtract := fun h => by cases h
    atSplit := fun h => by cases h
    atGate := fun h => by cases h
    atDone := fun h => by cases h
    atTruncated := fun h => by cases h
    atDecode := fun _ => ⟨⟨0x8001, 1, rfl, rfl, rfl⟩, ⟨0x8001, 1, rfl, by decide, rfl, rfl⟩,
      7, 1, 10, rfl, rfl, rfl, rfl, ⟨1, rfl, by decide⟩, by decide, by decide, by decide,
      by decide, by decide⟩ }

/-- A full output with spent input meets the invariant. -/
theorem full_inv : (demo false 0x3D00 1 [0x61] []).Inv where
  fbForm := by decide
  fbInside := fun c hc => ⟨0x8001, rfl, by revert c; decide⟩
  obForm := by decide
  errOnlyInError := by decide
  infoOnlyWithErr := by decide
  resultOnlyAtEnd := by decide
  atIdle := fun h => by cases h
  atExtract := fun h => by cases h
  atSplit := fun h => by cases h
  atGate := fun h => by cases h
  atDone := fun h => by cases h
  atTruncated := fun h => by cases h
  atDecode := fun _ => ⟨⟨0x8001, 1, rfl, rfl, rfl⟩, ⟨0x8001, 1, rfl, by decide, rfl, rfl⟩,
    1, 1, 0x3D00, rfl, rfl, rfl, rfl, ⟨1, rfl, by decide⟩, by decide, by decide, by decide,
    by decide, by decide⟩

/-- Spent input with output missing meets the invariant, under each STRICT. -/
theorem spent_inv (strict : Bool) : (spent strict).Inv := by
  cases strict
  all_goals exact {
    fbForm := by decide
    fbInside := fun c hc => ⟨0x8001, rfl, by revert c; decide⟩
    obForm := by decide
    errOnlyInError := by decide
    infoOnlyWithErr := by decide
    resultOnlyAtEnd := by decide
    atIdle := fun h => by cases h
    atExtract := fun h => by cases h
    atSplit := fun h => by cases h
    atGate := fun h => by cases h
    atDone := fun h => by cases h
    atTruncated := fun h => by cases h
    atDecode := fun _ => ⟨⟨0x8001, 1, rfl, rfl, rfl⟩, ⟨0x8001, 1, rfl, by decide, rfl, rfl⟩,
      5, 1, 0x3D00, rfl, rfl, rfl, rfl, ⟨1, rfl, by decide⟩, by decide, by decide, by decide,
      by decide, by decide⟩ }

/-- The ended operation meets the invariant. -/
theorem ended_inv : ended.Inv where
  fbForm := by decide
  fbInside := fun c hc => ⟨0x8001, rfl, by revert c; decide⟩
  obForm := by decide
  errOnlyInError := by decide
  infoOnlyWithErr := by decide
  resultOnlyAtEnd := by decide
  atIdle := fun h => by cases h
  atExtract := fun h => by cases h
  atSplit := fun h => by cases h
  atGate := fun h => by cases h
  atDecode := fun h => by cases h
  atTruncated := fun h => by cases h
  atDone := fun _ => ⟨⟨0x8001, 1, rfl, rfl, rfl⟩, ⟨0x8001, 1, rfl, by decide, rfl, rfl⟩,
    ⟨1, 1, 10, rfl, rfl, rfl, rfl, ⟨1, rfl, by decide⟩, by decide, by decide, by decide,
      by decide, by decide⟩, rfl, rfl⟩

theorem witness_NewInstanceIsInResetState :
    (hostReset State.reset).params = State.reset.params ∧ State.reset.schedule = [] := ⟨rfl, rfl⟩

theorem witness_ResetCommandPutsResetTable :
    ((afterA 7 [0x3C, 0x41]).setSchedule [.host .reset]).schedule = .host .reset :: [] := rfl

theorem witness_DecodeOfEncode :
    (Instr.esc 0xFF).wellFormed = true ∧ (Instr.sym 59).wellFormed = true ∧
    (Instr.bref 3135 17).wellFormed = true := by decide

theorem witness_EncodeOfDecode : decode [0xFF, 0xFF, 0x07] = .ok (.bref 3135 17, [0x07]) := by decide

theorem witness_BrefOperandsBijective :
    0x3C ≤ (0x3C : Byte).toNat ∧ 0x3C ≤ (0xFF : Byte).toNat ∧
    (3135 : RefOffset).toNat ≤ 3135 ∧ 2 ≤ (2 : RefLength).toNat ∧ (17 : RefLength).toNat ≤ 17 := by
  decide

theorem witness_BrefOperandValues :
    0x3C ≤ (0x3C : Byte).toNat ∧ 0x3C ≤ (0xFF : Byte).toNat := by decide

theorem witness_ControlByteGivesLength :
    decode [0x3B, 0x00] = .ok (.sym 59, [0x00]) ∧ decode [0x00, 0x00] = .ok (.esc 0, []) ∧
    decode [0x3C, 0x00] = .ok (.bref 0 2, []) := by decide

theorem witness_CopyExpansionSumsToLength :
    1 ≤ (1 : RefOffset).toNat ∧ (3135 : RefOffset).toNat ≤ 3135 ∧ 2 ≤ 18 := by decide

theorem witness_CopyExpansionIsOnePeriodicCopy :
    (demo false 10 0x20 [0x61] []).AtToken 10 1 0x20 ∧ (demo false 10 0x20 [0x61] []).FilledBelow 1 ∧
    copyTokens 1 18 = some [.bref 1 16, .bref 1 2] ∧ (1 : RefOffset).toNat ≤ (1 : OutCursor).toNat ∧
    (1 : OutCursor).toNat + 18 ≤ (0x20 : OutCursor).toNat ∧
    (10 : InCursor).toNat + 2 * 2 ≤ Config.codeLen :=
  ⟨⟨rfl, rfl, rfl, rfl, by decide, by decide⟩, ⟨by decide, by decide⟩, by decide, by decide,
    by decide, by decide⟩

theorem witness_ExtractPacksGridRowMajor :
    extracting.schedule = [] ∧ extracting.phase = .extract ∧ extracting.gridW = some 3 ∧
    extracting.gridH = some 2 ∧ extracting.pix.length = 3 * 2 := ⟨rfl, rfl, rfl, rfl, rfl⟩

theorem witness_ExtractEqualsWriteLoop : gridV10.length = 3 * 2 := rfl

theorem witness_SplitChecksStreamLength :
    (splitting 0x8000).schedule = [] ∧ (splitting 0x8000).phase = .split ∧
    (splitting 0x8000).fbLen = some 0x8000 ∧ (splitting 0x8001).schedule = [] ∧
    (splitting 0x8001).phase = .split ∧ (splitting 0x8001).fbLen = some 0x8001 := by decide

theorem witness_RegionViewsReadTheStream :
    ended.fbLen = some 0x8001 ∧ ended.phase = .done ∧ 0x3CFF < Region.code.len ∧
    (afterA 7 [0x3C, 0x41]).fbLen = some 0x8001 ∧ (afterA 7 [0x3C, 0x41]).phase = .decode := by decide

theorem witness_GateChecksVersionThenReadsHeader :
    (gating 4).schedule = [] ∧ (gating 4).phase = .gate ∧ (gating 4).version = some 4 ∧
    (gating 4).fbLen = some 0x8001 ∧ (gating 5).schedule = [] ∧ (gating 5).phase = .gate ∧
    (gating 5).version = some 5 ∧ (gating 5).fbLen = some 0x8001 := by decide

theorem witness_FullOutputEndsInDone :
    (demo false 0x3D00 1 [0x61] []).schedule = [] ∧ (demo false 0x3D00 1 [0x61] []).phase = .decode ∧
    (demo false 0x3D00 1 [0x61] []).inCur = some 0x3D00 ∧
    (demo false 0x3D00 1 [0x61] []).outCur = some 1 ∧
    (demo false 0x3D00 1 [0x61] []).dlen = some 1 ∧ (demo false 0x3D00 1 [0x61] []).Inv :=
  ⟨rfl, rfl, rfl, rfl, rfl, full_inv⟩

theorem witness_SpentInputEndsByStrict (strict : Bool) :
    (spent strict).schedule = [] ∧ (spent strict).phase = .decode ∧
    (spent strict).inCur = some 0x3D00 ∧ (spent strict).outCur = some 1 ∧
    (spent strict).dlen = some 5 ∧ (1 : OutCursor).toNat < (5 : OutCursor).toNat ∧
    0x3D00 ≤ (0x3D00 : InCursor).toNat ∧ (spent strict).params.strict = strict ∧
    (spent strict).Inv :=
  ⟨rfl, rfl, rfl, rfl, rfl, by decide, by decide, rfl, spent_inv strict⟩

theorem witness_StraddlingTokenSpendsInput :
    (demo false 0x3CFF 3 [] [0x00]).schedule = [] ∧
    (demo false 0x3CFF 3 [] [0x00]).AtToken 0x3CFF 0 3 ∧
    readCr (demo false 0x3CFF 3 [] [0x00]) 0x3CFF = .ok 0x00 ∧
    (demo false 0x3CFF 3 [] [0x3C]).schedule = [] ∧
    (demo false 0x3CFF 3 [] [0x3C]).AtToken 0x3CFF 0 3 ∧
    readCr (demo false 0x3CFF 3 [] [0x3C]) 0x3CFF = .ok 0x3C :=
  ⟨rfl, ⟨rfl, rfl, rfl, rfl, by decide, by decide⟩, rfl,
    rfl, ⟨rfl, rfl, rfl, rfl, by decide, by decide⟩, rfl⟩

theorem witness_StepRunsDecodedToken :
    (afterA 7 [0x3C, 0x41]).AtToken 10 1 7 ∧ decode [0x3C, 0x41] = .ok (.bref 1 6, []) ∧
    readCr (afterA 7 [0x3C, 0x41]) 10 = .ok 0x3C ∧ readCr (afterA 7 [0x3C, 0x41]) 11 = .ok 0x41 ∧
    (afterA 7 [0x3C, 0x41]).schedule = [] :=
  ⟨afterA_at_token, by decide, rfl, rfl, rfl⟩

theorem witness_DecodeStepKeepsStream :
    (afterA 7 [0x3C, 0x41]).schedule = [] ∧ (afterA 7 [0x3C, 0x41]).phase = .decode ∧
    ∃ t, step (afterA 7 [0x3C, 0x41]) = .next t := ⟨rfl, rfl, _, rfl⟩

theorem witness_EscEmitsLiteral :
    (demo false 8 3 [] [0x00, 0x41]).AtToken 8 0 3 ∧
    Memory.wf obUnlisted (demo false 8 3 [] [0x00, 0x41]).ob = true ∧
    (demo false 8 3 [] [0x00, 0x41]).schedule = [] ∧
    readCr (demo false 8 3 [] [0x00, 0x41]) 8 = .ok 0x00 ∧
    readCr (demo false 8 3 [] [0x00, 0x41]) 9 = .ok 0x41 ∧
    (demo false 0x3CFF 3 [] [0x00]).AtToken 0x3CFF 0 3 ∧
    readCr (demo false 0x3CFF 3 [] [0x00]) 0x3CFF = .ok 0x00 :=
  ⟨⟨rfl, rfl, rfl, rfl, by decide, by decide⟩, by decide, rfl, rfl, rfl,
    ⟨rfl, rfl, rfl, rfl, by decide, by decide⟩, rfl⟩

theorem witness_SymEmitsTableEntry :
    (demo false 0x3CFF 3 [] [0x02]).AtToken 0x3CFF 0 3 ∧
    Memory.wf obUnlisted (demo false 0x3CFF 3 [] [0x02]).ob = true ∧
    (demo false 0x3CFF 3 [] [0x02]).schedule = [] ∧
    readCr (demo false 0x3CFF 3 [] [0x02]) 0x3CFF = .ok 0x02 ∧
    (2 : SymIndex).toNat = (0x02 : Byte).toNat ∧
    readCr (demo false 8 3 [] [0x3B]) 8 = .ok 0x3B ∧ (59 : SymIndex).toNat = (0x3B : Byte).toNat :=
  ⟨⟨rfl, rfl, rfl, rfl, by decide, by decide⟩, by decide, rfl, rfl, by decide, rfl, by decide⟩

theorem witness_DuplicateSymbolEmitsEntryZero :
    (demo false 8 3 [] [0x29]).AtToken 8 0 3 ∧
    Memory.wf obUnlisted (demo false 8 3 [] [0x29]).ob = true ∧
    (demo false 8 3 [] [0x29]).params.DuplicateEntry ∧
    (demo false 8 3 [] [0x29]).params.SymbolsZeroOne :=
  ⟨⟨rfl, rfl, rfl, rfl, by decide, by decide⟩, by decide, by decide, by decide⟩

theorem witness_BrefCopiesPeriodically :
    (afterA 7 [0x3C, 0x41]).AtToken 10 1 7 ∧ (afterA 7 [0x3C, 0x41]).FilledBelow 1 ∧
    (10 : InCursor).toNat + 1 < 0x3D00 ∧ 1 ≤ (1 : RefOffset).toNat ∧
    (1 : RefOffset).toNat ≤ (1 : OutCursor).toNat ∧ (afterA 7 [0x3C, 0x41]).schedule = [] ∧
    readCr (afterA 7 [0x3C, 0x41]) 10 = .ok 0x3C ∧ readCr (afterA 7 [0x3C, 0x41]) 11 = .ok 0x41 ∧
    (1 : RefOffset).toNat = ((0x3C : Byte).toNat - 0x3C) * 16 + (0x41 : Byte).toNat % 16 ∧
    (6 : RefLength).toNat = (0x41 : Byte).toNat / 16 + 2 :=
  ⟨afterA_at_token, ⟨by decide, by decide⟩, by decide, by decide, by decide, rfl, rfl, rfl,
    by decide, by decide⟩

theorem witness_BadOffsetRaisesBadReference :
    (afterA 7 [0x3C, 0x02]).AtToken 10 1 7 ∧ (10 : InCursor).toNat + 1 < 0x3D00 ∧
    (0 : RefOffset).toNat = 0 ∧ (2 : RefOffset).toNat > (1 : OutCursor).toNat ∧
    (afterA 7 [0x3C, 0x41]).AtToken 10 1 7 ∧ (afterA 7 [0x3C, 0x41]).Inv :=
  ⟨⟨rfl, rfl, rfl, rfl, by decide, by decide⟩, by decide, by decide, by decide, afterA_at_token,
    afterA_inv _ (.inl rfl)⟩

theorem witness_StraddlingTokensWriteNothing :
    (demo false 0x3CFF 3 [] [0x3C]).AtToken 0x3CFF 0 3 :=
  ⟨rfl, rfl, rfl, rfl, by decide, by decide⟩

theorem witness_TokensAdvanceCursors :
    (afterA 7 [0x3C, 0x41]).AtToken 10 1 7 ∧ (Instr.bref 1 6).wellFormed = true ∧
    (∃ t, exec (.bref 1 6) (afterA 7 [0x3C, 0x41]) = .next t ∧ t.phase ≠ .error) ∧
    (demo false 0x3CFF 3 [] [0x3C]).AtToken 0x3CFF 0 3 ∧
    ∃ t, exec (.bref 1 6) (demo false 0x3CFF 3 [] [0x3C]) = .next t ∧ t.phase ≠ .error :=
  ⟨afterA_at_token, by decide, ⟨_, rfl, by decide⟩,
    ⟨rfl, rfl, rfl, rfl, by decide, by decide⟩, ⟨_, rfl, by decide⟩⟩

theorem witness_TokenFrame :
    tokenContext (afterA 7 [0x3C, 0x41]) = .ok ⟨10, 1, 7⟩ ∧
    Memory.wf obUnlisted (afterA 7 [0x3C, 0x41]).ob = true ∧
    (∃ t, exec (.bref 1 6) (afterA 7 [0x3C, 0x41]) = .next t) ∧
    (∃ t, exec (.bref 2 2) (afterA 7 [0x3C, 0x41]) = .next t) ∧
    (∃ t, exec (.esc 0x41) (afterA 7 [0x3C, 0x41]) = .next t) ∧
    ∃ t, exec (.sym 1) (afterA 7 [0x3C, 0x41]) = .next t :=
  ⟨rfl, by decide, ⟨_, rfl⟩, ⟨_, rfl⟩, ⟨_, rfl⟩, ⟨_, rfl⟩⟩

theorem witness_OnlyBrefRaises :
    (∃ t, exec (.bref 2 2) (afterA 7 [0x3C, 0x41]) = .next t ∧ t.phase = .error) ∧
    ∃ t, exec (.esc 0x41) (afterA 7 [0x3C, 0x41]) = .next t ∧ t.phase = .decode :=
  ⟨⟨_, rfl, rfl⟩, ⟨_, rfl, rfl⟩⟩

theorem witness_TokensCompleteExactlyInPrecondition :
    (afterA 7 [0x3C, 0x41]).Inv ∧ (afterA 7 [0x3C, 0x41]).AtToken 10 1 7 ∧ State.reset.phase = .idle :=
  ⟨afterA_inv _ (.inl rfl), afterA_at_token, rfl⟩

theorem witness_WrittenPositionsStay :
    (afterA 7 [0x3C, 0x41]).Inv ∧ (afterA 7 [0x3C, 0x41]).schedule = [] ∧
    (afterA 7 [0x3C, 0x41]).phase = .decode ∧ (∃ t, step (afterA 7 [0x3C, 0x41]) = .next t) ∧
    Memory.read obUnlisted (afterA 7 [0x3C, 0x41]).ob 0 = some 0x61 :=
  ⟨afterA_inv _ (.inl rfl), rfl, rfl, ⟨_, rfl⟩, rfl⟩

theorem witness_StepRaisesOnlyTabledErrors :
    (∃ t, step (splitting 0x8000) = .next t ∧ t.phase = .error) ∧
    (∃ t, step (gating 4) = .next t ∧ t.phase = .error) ∧
    (∃ t, step (afterA 7 [0x3C, 0x02]) = .next t ∧ t.phase = .error ∧
      t.errInfo = some ⟨.decode, some 10, some 1, .reference (brefOffset 0x3C 0x02) (brefLength 0x02)⟩) ∧
    readCr (afterA 7 [0x3C, 0x02]) 10 = .ok 0x3C ∧ readCr (afterA 7 [0x3C, 0x02]) 11 = .ok 0x02 ∧
    (brefOffset 0x3C 0x02).toNat > (1 : OutCursor).toNat ∧ (brefOffset 0x3C 0x00).toNat = 0 ∧
    (∃ t, step (spent true) = .next t ∧ t.phase = .error) ∧ (spent true).schedule = [] :=
  ⟨⟨_, rfl, rfl⟩, ⟨_, rfl, rfl⟩, ⟨_, rfl, rfl, rfl⟩, rfl, rfl, by decide, by decide, ⟨_, rfl, rfl⟩, rfl⟩

theorem witness_HostReadsOnlyEndedResults :
    ended.Inv ∧ ended.phase = .done ∧ (afterA 7 [0x3C, 0x41]).Inv ∧
    (afterA 7 [0x3C, 0x41]).phase = .decode :=
  ⟨ended_inv, rfl, afterA_inv _ (.inl rfl), rfl⟩

theorem witness_StartBeginsAnOperation :
    (ended.setSchedule [.host (.start 3 2 gridV10)]).schedule = [.host (.start 3 2 gridV10)] ∧
    (ended.setSchedule [.host (.start 3 2 gridV10)]).phase = .done ∧ gridV10.length = 3 * 2 :=
  ⟨rfl, rfl, rfl⟩

theorem witness_StartWhileBusyIsRefused :
    ((afterA 7 []).setSchedule [.host (.start 0 0 [])]).schedule = [.host (.start 0 0 [])] ∧
    ((afterA 7 []).setSchedule [.host (.start 0 0 [])]).phase = .decode := ⟨rfl, rfl⟩

theorem witness_NoStepOutsideBusyPhases :
    State.reset.schedule = [] ∧ State.reset.phase = .idle ∧ ended.schedule = [] ∧
    ended.phase = .done := ⟨rfl, rfl, rfl, rfl⟩

theorem witness_StageOrder :
    extracting.schedule = [] ∧ (∃ t, step extracting = .next t) ∧
    (∃ t, step (splitting 0x8001) = .next t) ∧ (∃ t, step (gating 1) = .next t) ∧
    ∃ t, step (spent false) = .next t := ⟨rfl, ⟨_, rfl⟩, ⟨_, rfl⟩, ⟨_, rfl⟩, ⟨_, rfl⟩⟩

theorem witness_ConfigurationNeverChanges :
    (∃ t, step (ended.setSchedule [.host .reset]) = .next t) ∧
    (∃ t, step (ended.setSchedule [.host (.start 0 0 [])]) = .next t) ∧
    ∃ t, step (afterA 7 [0x3C, 0x41]) = .next t := ⟨⟨_, rfl⟩, ⟨_, rfl⟩, ⟨_, rfl⟩⟩

/-- The demo table with entries 0 and 63 changed. -/
def otherParams : Params where
  symbolTable := ((demoParams false).symbolTable.set 0 0x7E).set 63 0x7E
  strict := false

theorem witness_UnreachableSymbolsNeverRead :
    (demo false 8 3 [] [0x3B]).schedule = [] ∧
    otherParams.strict = (demo false 8 3 [] [0x3B]).params.strict ∧
    (∀ n : Nat, 1 ≤ n → n ≤ 0x3B →
      otherParams.symbolTable[n]? = (demo false 8 3 [] [0x3B]).params.symbolTable[n]?) ∧
    (∃ t, step (demo false 8 3 [] [0x3B]) = .next t) ∧ otherParams ≠ demoParams false := by
  refine ⟨rfl, rfl, fun n h1 h2 => ?_, ⟨_, rfl⟩, by decide⟩
  have h : ∀ n < 0x3C, 1 ≤ n →
      otherParams.symbolTable[n]? = (demo false 8 3 [] [0x3B]).params.symbolTable[n]? := by decide
  exact h n (by omega) h1

theorem witness_StepKeepsInvariant :
    (afterA 7 [0x3C, 0x41]).Inv ∧ (∃ t, step (afterA 7 [0x3C, 0x41]) = .next t) ∧
    (∃ t, step (afterA 7 [0x3C, 0x02]) = .next t ∧ t.phase = .error) ∧
    (afterA 7 [0x3C, 0x02]).Inv :=
  ⟨afterA_inv _ (.inl rfl), ⟨_, rfl⟩, ⟨_, rfl, rfl⟩, afterA_inv _ (.inr rfl)⟩

theorem witness_BusyStepNeverStops :
    (afterA 7 [0x3C, 0x41]).Inv ∧ (afterA 7 [0x3C, 0x41]).schedule = [] ∧
    (afterA 7 [0x3C, 0x41]).busy = true := ⟨afterA_inv _ (.inl rfl), rfl, rfl⟩

theorem witness_OperationEndsWithinBound :
    (spent false).Inv ∧ (spent false).schedule = [] ∧ (spent false).busy = true :=
  ⟨spent_inv false, rfl, rfl⟩

/-- The first instance as it is after reset, the second after an operation that left FB and OB behind. -/
theorem witness_OperationsAreIndependent :
    ((State.reset.setSchedule [.host (.start 3 2 gridV10)]).busy = false) ∧
    (({ ended with params := Params.default } : State).setSchedule
      [.host (.start 3 2 gridV10)]).busy = false ∧
    (({ ended with params := Params.default } : State).setSchedule
      [.host (.start 3 2 gridV10)]).params = State.reset.params ∧
    ∃ t, runSteps (2 + 1) (State.reset.setSchedule [.host (.start 3 2 gridV10)]) = .next t ∧
      t.phase = .error :=
  ⟨rfl, rfl, rfl, _, rfl, rfl⟩

end Sys2Proof.Tests
end

/-! PROOFS of the statements about the state: the status views, RESET, the configuration, what the host reads, two blocks
side by side, and the invariant of the block. -/

namespace Sys2Proof

/-- Whatever decodes is well formed: 30_encoding.md R63, R68, R69. -/
theorem wellFormed_of_decode {bytes rest : List Byte} {i : Instr}
    (h : decode bytes = .ok (i, rest)) : i.wellFormed = true := by
  rcases decode_cases h with ⟨c, v, -, -, rfl⟩ | ⟨c, -, hk, rfl⟩ | ⟨c, b, -, -, rfl⟩
  · rfl
  · rw [tokenKind_sym_iff] at hk
    rwa [wellFormed_sym_iff, symOperand_toNat hk.2]
  · have := c.isLt
    have := b.isLt
    rw [wellFormed_bref_iff, brefOffset_toNat, brefLength_toNat]
    omega

end Sys2Proof

namespace Sys2Proof.Machine

/-! ### The status views -/

theorem Phase.busy_iff_code (p : Phase) :
    p.busy = true ↔ p.code = 1 ∨ p.code = 2 ∨ p.code = 3 ∨ p.code = 4 := by
  cases p <;> decide

theorem Phase.code_injective : Function.Injective Phase.code := by
  intro p q
  cases p <;> cases q <;> decide

theorem Phase.hasResult_iff (p : Phase) : p.hasResult = true ↔ p = .done ∨ p = .truncated := by
  cases p <;> decide

/-- Settles O4: PHASE's codes are distinct, so each view is a test of the code. -/
theorem statusViewsDecodePhase : Obligations.StatusViewsDecodePhase := fun s => by
  refine ⟨s.phase.busy_iff_code, ?_, ?_, ?_⟩
  · exact beq_iff_eq.trans (Phase.code_injective.eq_iff (b := .done)).symm
  · exact beq_iff_eq.trans (Phase.code_injective.eq_iff (b := .truncated)).symm
  · exact beq_iff_eq.trans (Phase.code_injective.eq_iff (b := .error)).symm

/-! ### One turn, by its kind and phase -/

theorem step_of_schedule_nil {s : State} (h : s.schedule = []) : step s = sequencerStep s := by
  rw [step, h]

theorem step_of_schedule_sequencer {s : State} {ts : List Turn} (h : s.schedule = .sequencer :: ts) :
    step s = sequencerStep (s.setSchedule ts) := by
  rw [step, h]

theorem step_of_schedule_host {s : State} {cmd : HostCommand} {ts : List Turn}
    (h : s.schedule = .host cmd :: ts) : step s = hostCommand cmd (s.setSchedule ts) := by
  rw [step, h]

/-- A START that is accepted answers the begun operation. -/
theorem step_start {s : State} {w h : Nat} {pix : List Pixel} {ts : List Turn}
    (hs : s.schedule = .host (.start w h pix) :: ts) (hb : s.busy = false)
    (hl : pix.length = w * h) : step s = .next ((s.setSchedule ts).begin w h pix) := by
  have hb' : (s.setSchedule ts).busy = false := hb
  simp [step_of_schedule_host hs, hostCommand, hostStart, hb', hl]

/-- A START answers only where the block is idle or at an end and the list is a grid. -/
theorem step_start_cases {s t : State} {w h : Nat} {pix : List Pixel} {ts : List Turn}
    (hs : s.schedule = .host (.start w h pix) :: ts) (ht : step s = .next t) :
    pix.length = w * h ∧ t = (s.setSchedule ts).begin w h pix := by
  rcases step_cases ht with ⟨h, -⟩ | ⟨_, h, -⟩ | ⟨_, h, -⟩ | ⟨_, _, _, _, h, -, hl, rfl⟩
  · simp [hs] at h
  · simp [hs] at h
  · simp [hs] at h
  · rw [hs] at h
    cases h
    exact ⟨hl, rfl⟩

theorem sequencerStep_extract {s : State} (h : s.phase = .extract) :
    sequencerStep s = answer (stepExtract s) := by rw [sequencerStep, h]

theorem sequencerStep_split {s : State} (h : s.phase = .split) :
    sequencerStep s = answer (stepSplit s) := by rw [sequencerStep, h]

theorem sequencerStep_gate {s : State} (h : s.phase = .gate) :
    sequencerStep s = answer (stepGate s) := by rw [sequencerStep, h]

theorem sequencerStep_decode {s : State} (h : s.phase = .decode) :
    sequencerStep s = stepDecode s := by rw [sequencerStep, h]

theorem runSteps_succ_eq_next {n : Nat} {s t : State} :
    runSteps (n + 1) s = .next t ↔ ∃ u, step s = .next u ∧ runSteps n u = .next t := by
  rw [runSteps]
  cases step s <;> simp

/-! ### RESET -/

/-- Settles O2: the host's RESET turn is `hostReset` of the state with the turn taken off. -/
theorem resetCommandPutsResetTable : Obligations.ResetCommandPutsResetTable := by
  intro s ts hs
  exact ⟨hostReset (s.setSchedule ts), step_of_schedule_host hs, rfl, rfl, rfl, rfl, rfl, rfl, rfl,
    rfl, rfl, rfl, rfl, rfl, rfl, fun _ => rfl, rfl, rfl, rfl⟩

/-! ### What a step leaves of the configuration -/

theorem exec_params {i : Instr} {s t : State} (h : exec i s = .next t) : t.params = s.params := by
  cases i with
  | esc v =>
    obtain ⟨c, -, ⟨-, rfl⟩ | ⟨-, rfl⟩⟩ := execEsc_cases h <;> rfl
  | sym idx =>
    obtain ⟨c, -, rfl⟩ := execSym_cases h
    rfl
  | bref offset length =>
    obtain ⟨c, -, ⟨-, rfl⟩ | ⟨-, -, rfl⟩ | ⟨-, -, u, hu, rfl⟩⟩ := execBref_cases h
    · rfl
    · rfl
    · simpa using congrArg State.params (copyBytes_only_ob hu)

/-- `exhaust()` either raises TRUNCATED_INPUT or ends the operation in TRUNCATED. -/
theorem exhaust_cases (s : State) :
    (s.params.strict = true ∧ s.exhaust = s.raise s .truncatedInput .noValue) ∨
    (s.params.strict = false ∧ s.exhaust = s.truncate) := by
  cases h : s.params.strict <;> simp [State.exhaust, h]

theorem sequencerStep_params {s t : State} (h : sequencerStep s = .next t) :
    t.params = s.params := by
  rcases sequencerStep_cases h with ⟨-, h⟩ | ⟨-, h⟩ | ⟨-, h⟩ | ⟨-, h⟩
  · obtain ⟨w, hh, -, -, -, rfl⟩ := stepExtract_eq_ok.1 h
    rfl
  · obtain ⟨n, -, ⟨-, rfl⟩ | ⟨-, v, -, rfl⟩⟩ := stepSplit_eq_ok.1 h <;> rfl
  · obtain ⟨v, -, ⟨-, rfl⟩ | ⟨-, d, -, rfl⟩⟩ := stepGate_eq_ok.1 h <;> rfl
  · obtain ⟨m, -, ⟨-, rfl⟩ | ⟨-, rfl⟩ | ⟨-, rfl⟩ | ⟨i, -, h⟩⟩ := stepDecode_cases h
    · rfl
    · rcases exhaust_cases s with ⟨-, he⟩ | ⟨-, he⟩ <;> rw [he] <;> rfl
    · rfl
    · exact exec_params h

/-- Settles O44, by the cases of a turn: no stage and no host command writes `params`. -/
theorem configurationNeverChanges : Obligations.ConfigurationNeverChanges := by
  intro s t h
  rcases step_cases h with ⟨-, h⟩ | ⟨ts, -, h⟩ | ⟨ts, -, rfl⟩ | ⟨ts, w, hh, pix, -, -, -, rfl⟩
  · exact sequencerStep_params h
  · exact (sequencerStep_params h).trans (s.setSchedule_params ts)
  · rfl
  · rfl

/-! ### The region views -/

theorem Region.base_add_lt {x : Region} {n : Nat} (h : n < x.len) :
    x.base + n < Config.minStream := by
  cases x <;> simp only [Region.base, Region.len, Config.minStream] at h ⊢ <;> omega

theorem hostRegion_eq_none {s : State} {x : Region} {n : Nat}
    (h : ¬((s.phase = .done ∨ s.phase = .truncated) ∧ n < x.len)) : hostRegion s x n = none := by
  rw [hostRegion, if_neg (by rwa [Phase.hasResult_iff])]

theorem hostRegion_of_readFb {s : State} {x : Region} {n : Nat} {v : Byte}
    (hp : s.phase = .done ∨ s.phase = .truncated) (hn : n < x.len)
    (hv : readFb s (x.base + n) = .ok v) : hostRegion s x n = some v := by
  rw [hostRegion, if_pos ⟨(Phase.hasResult_iff _).2 hp, hn⟩, hv]

/-- Settles O20: every region lies below 0x8001, so a stream that long answers each read of it. -/
theorem regionViewsReadTheStream : Obligations.RegionViewsReadTheStream := by
  intro s len x n hlen hmin
  split
  · next h =>
    obtain ⟨v, hv⟩ := readFb_long hlen hmin (Region.base_add_lt h.2)
    exact ⟨v, hv, hostRegion_of_readFb h.1 h.2 hv⟩
  · next h => exact hostRegion_eq_none h

/-- Outside DONE and TRUNCATED the host reads neither a length nor text nor a region (10_state.md R35). -/
theorem host_reads_nothing {s : State} (h : ¬(s.phase = .done ∨ s.phase = .truncated)) :
    hostResultLen s = none ∧ hostText s = none ∧ (∀ k, hostTextByte s k = none) ∧
      ∀ x k, hostRegion s x k = none := by
  have hlen : hostResultLen s = none := by
    rw [hostResultLen, if_neg (by rwa [Phase.hasResult_iff])]
  exact ⟨hlen, by rw [hostText, hlen], fun k => by rw [hostTextByte, hlen],
    fun x k => hostRegion_eq_none fun hc => h hc.1⟩

/-! ### Twins -/

/-- Two states of the same operation on two blocks. What the blocks did before can show in FB and `FB_LEN` until
EXTRACT replaces them, and in OB until GATE empties it (45_orchestration.md R106, 10_state.md R37); an operation that
ends in ERROR before GATE keeps the old OB. -/
def Twins (s t : State) : Prop :=
  (s.phase = .extract ∧ ∃ l fb ob, t = { s with fbLen := l, fb := fb, ob := ob }) ∨
  ((s.phase = .split ∨ s.phase = .gate ∨ s.phase = .error) ∧ ∃ ob, t = { s with ob := ob }) ∨
  t = s

theorem Twins.setSchedule {s t : State} (h : Twins s t) (ts : List Turn) :
    Twins (s.setSchedule ts) (t.setSchedule ts) := by
  rcases h with ⟨hp, l, fb, ob, rfl⟩ | ⟨hp, ob, rfl⟩ | rfl
  · exact .inl ⟨hp, l, fb, ob, rfl⟩
  · exact .inr (.inl ⟨hp, ob, rfl⟩)
  · exact .inr (.inr rfl)

theorem Twins.params_eq {s t : State} (h : Twins s t) : t.params = s.params := by
  rcases h with ⟨-, l, fb, ob, rfl⟩ | ⟨-, ob, rfl⟩ | rfl <;> rfl

theorem Twins.phase_eq {s t : State} (h : Twins s t) : t.phase = s.phase := by
  rcases h with ⟨-, l, fb, ob, rfl⟩ | ⟨-, ob, rfl⟩ | rfl <;> rfl

theorem Twins.schedule_eq {s t : State} (h : Twins s t) : t.schedule = s.schedule := by
  rcases h with ⟨-, l, fb, ob, rfl⟩ | ⟨-, ob, rfl⟩ | rfl <;> rfl

/-- START makes twins of any two blocks with one configuration: it latches the grid and clears every register but
`FB_LEN`. -/
theorem twins_begin {s t : State} (hp : t.params = s.params) (hs : t.schedule = s.schedule)
    (w h : Nat) (pix : List Pixel) : Twins (s.begin w h pix) (t.begin w h pix) :=
  .inl ⟨rfl, t.fbLen, t.fb, t.ob, by simp only [State.begin, hp, hs]⟩

theorem twins_hostReset {s t : State} (hp : t.params = s.params) (hs : t.schedule = s.schedule) :
    Twins (hostReset s) (hostReset t) :=
  .inr (.inr (by simp only [hostReset, hp, hs]))

theorem stepExtract_twins {s t s' : State} (h : Twins s t) (hp : s.phase = .extract)
    (hs : stepExtract s = .ok s') : ∃ t', stepExtract t = .ok t' ∧ Twins s' t' := by
  obtain ⟨w, hh, hw, hh', hl, rfl⟩ := stepExtract_eq_ok.1 hs
  rcases h with ⟨-, l, fb, ob, rfl⟩ | ⟨h', -⟩ | rfl
  · exact ⟨_, stepExtract_eq_ok.2 ⟨w, hh, hw, hh', hl, rfl⟩, .inr (.inl ⟨.inl rfl, ob, rfl⟩)⟩
  · simp [hp] at h'
  · exact ⟨_, hs, .inr (.inr rfl)⟩

theorem stepSplit_twins {s t s' : State} (h : Twins s t) (hp : s.phase = .split)
    (hs : stepSplit s = .ok s') : ∃ t', stepSplit t = .ok t' ∧ Twins s' t' := by
  rcases h with ⟨h', -⟩ | ⟨-, ob, rfl⟩ | rfl
  · simp [hp] at h'
  · obtain ⟨n, hn, ⟨hl, rfl⟩ | ⟨hl, v, hv, rfl⟩⟩ := stepSplit_eq_ok.1 hs
    · exact ⟨_, stepSplit_eq_ok.2 ⟨n, hn, .inl ⟨hl, rfl⟩⟩,
        .inr (.inl ⟨.inr (.inr rfl), ob, rfl⟩)⟩
    · exact ⟨_, stepSplit_eq_ok.2 ⟨n, hn, .inr ⟨hl, v, hv, rfl⟩⟩,
        .inr (.inl ⟨.inr (.inl rfl), ob, rfl⟩)⟩
  · exact ⟨_, hs, .inr (.inr rfl)⟩

theorem stepGate_twins {s t s' : State} (h : Twins s t) (hp : s.phase = .gate)
    (hs : stepGate s = .ok s') : ∃ t', stepGate t = .ok t' ∧ Twins s' t' := by
  rcases h with ⟨h', -⟩ | ⟨-, ob, rfl⟩ | rfl
  · simp [hp] at h'
  · obtain ⟨v, hv, ⟨hl, rfl⟩ | ⟨hl, d, hd, rfl⟩⟩ := stepGate_eq_ok.1 hs
    · exact ⟨_, stepGate_eq_ok.2 ⟨v, hv, .inl ⟨hl, rfl⟩⟩,
        .inr (.inl ⟨.inr (.inr rfl), ob, rfl⟩)⟩
    · exact ⟨_, stepGate_eq_ok.2 ⟨v, hv, .inr ⟨hl, d, hd, rfl⟩⟩, .inr (.inr rfl)⟩
  · exact ⟨_, hs, .inr (.inr rfl)⟩

theorem Twins.eq_of_decode {s t : State} (h : Twins s t) (hp : s.phase = .decode) : t = s := by
  rcases h with ⟨h', -⟩ | ⟨h', -⟩ | h
  · simp [hp] at h'
  · simp [hp] at h'
  · exact h

theorem sequencerStep_twins {s t s' : State} (h : Twins s t) (hs : sequencerStep s = .next s') :
    ∃ t', sequencerStep t = .next t' ∧ Twins s' t' := by
  rcases sequencerStep_cases hs with ⟨hp, hs'⟩ | ⟨hp, hs'⟩ | ⟨hp, hs'⟩ | ⟨hp, -⟩
  · rw [sequencerStep_extract (h.phase_eq.trans hp)]
    simpa only [answer_eq_next] using stepExtract_twins h hp hs'
  · rw [sequencerStep_split (h.phase_eq.trans hp)]
    simpa only [answer_eq_next] using stepSplit_twins h hp hs'
  · rw [sequencerStep_gate (h.phase_eq.trans hp)]
    simpa only [answer_eq_next] using stepGate_twins h hp hs'
  · rw [h.eq_of_decode hp]
    exact ⟨s', hs, .inr (.inr rfl)⟩

/-- Twins stay twins under every turn, of the sequencer or of the host. -/
theorem step_twins {s t s' : State} (h : Twins s t) (hs : step s = .next s') :
    ∃ t', step t = .next t' ∧ Twins s' t' := by
  rcases step_cases hs with ⟨hn, hs'⟩ | ⟨ts, hn, hs'⟩ | ⟨ts, hn, rfl⟩ |
    ⟨ts, w, hh, pix, hn, hb, hl, rfl⟩
  · rw [step_of_schedule_nil (h.schedule_eq.trans hn)]
    exact sequencerStep_twins h hs'
  · rw [step_of_schedule_sequencer (h.schedule_eq.trans hn)]
    exact sequencerStep_twins (h.setSchedule ts) hs'
  · have hts := h.setSchedule ts
    exact ⟨_, step_of_schedule_host (h.schedule_eq.trans hn),
      twins_hostReset hts.params_eq hts.schedule_eq⟩
  · have hts := h.setSchedule ts
    refine ⟨_, step_start (h.schedule_eq.trans hn) ?_ hl,
      twins_begin hts.params_eq hts.schedule_eq w hh pix⟩
    rw [← hb, State.busy, State.busy, h.phase_eq]

theorem runSteps_twins {n : Nat} {s t s' : State} (h : Twins s t) (hs : runSteps n s = .next s') :
    ∃ t', runSteps n t = .next t' ∧ Twins s' t' := by
  induction n generalizing s t with
  | zero =>
    cases hs
    exact ⟨t, rfl, h⟩
  | succ n ih =>
    obtain ⟨u, hu, hs⟩ := runSteps_succ_eq_next.1 hs
    obtain ⟨v, hv, huv⟩ := step_twins h hu
    obtain ⟨t', ht', htw⟩ := ih huv hs
    exact ⟨t', runSteps_succ_eq_next.2 ⟨v, hv, ht'⟩, htw⟩

theorem sameToHost_of_not_ended {s t : State} (h : ¬(s.phase = .done ∨ s.phase = .truncated))
    (hp : t.phase = s.phase) (he : t.err = s.err) (hi : t.errInfo = s.errInfo) :
    SameToHost s t := by
  obtain ⟨hlen, htext, hbyte, hregion⟩ := host_reads_nothing h
  obtain ⟨hlen', htext', hbyte', hregion'⟩ := host_reads_nothing (s := t) (by rwa [hp])
  exact {
    phase := by rw [hostPhase, hostPhase, hp]
    err := by rw [hostErr, hostErr, he]
    errInfo := hi.symm
    resultLen := hlen.trans hlen'.symm
    textByte := fun i => (hbyte i).trans (hbyte' i).symm
    text := htext.trans htext'.symm
    region := fun x i => (hregion x i).trans (hregion' x i).symm }

/-- The host cannot tell twins apart: where they differ it reads no memory. -/
theorem Twins.sameToHost {s t : State} (h : Twins s t) : SameToHost s t := by
  rcases h with ⟨hp, l, fb, ob, rfl⟩ | ⟨hp, ob, rfl⟩ | rfl
  · exact sameToHost_of_not_ended (by simp [hp]) rfl rfl rfl
  · exact sameToHost_of_not_ended (by rcases hp with hp | hp | hp <;> simp [hp]) rfl rfl rfl
  · exact ⟨rfl, rfl, rfl, rfl, fun _ => rfl, rfl, fun _ _ => rfl⟩

/-- Settles O49: START makes twins of the two blocks, every step keeps them twins, and the host cannot tell twins
apart. -/
theorem operationsAreIndependent : Obligations.OperationsAreIndependent := by
  intro s₁ s₂ w h pix n t₁ hp hs₁ hs₂ _ hb₂ hrun
  obtain ⟨u, hu, hrun⟩ := runSteps_succ_eq_next.1 hrun
  obtain ⟨hl, rfl⟩ := step_start_cases hs₁ hu
  have htw : Twins ((s₁.setSchedule []).begin w h pix) ((s₂.setSchedule []).begin w h pix) :=
    twins_begin (s := s₁.setSchedule []) (t := s₂.setSchedule []) hp.symm rfl w h pix
  obtain ⟨t₂, ht₂, hsame⟩ := runSteps_twins htw hrun
  exact ⟨t₂, runSteps_succ_eq_next.2 ⟨_, step_start hs₂ hb₂ hl, ht₂⟩, hsame.sameToHost⟩

/-! ### Another configuration -/

theorem wellFormed_of_loopMove {s : State} {i : Instr} (h : loopMove s = .ok (.token i)) :
    i.wellFormed = true := by
  obtain ⟨_, _, _, -, -, -, ⟨-, hm⟩ | ⟨-, -, hm⟩ | ⟨-, -, -, hm⟩ |
    ⟨-, -, bytes, instr, -, hdec, hm⟩⟩ := loopMove_cases h
  · cases hm
  · cases hm
  · cases hm
  · cases hm
    exact wellFormed_of_decode hdec

/-- The same state in a block with the configuration `p`. -/
def State.withParams (s : State) (p : Params) : State := { s with params := p }

theorem tokenContext_withParams (s : State) (p : Params) :
    tokenContext (s.withParams p) = tokenContext s := rfl

theorem loopMove_withParams (s : State) (p : Params) :
    loopMove (s.withParams p) = loopMove s := rfl

theorem emitByte_withParams {s t : State} {c : TokenContext} {v : Byte} {n : Nat} (p : Params)
    (h : emitByte s c v n = .ok t) : emitByte (s.withParams p) c v n = .ok (t.withParams p) := by
  obtain ⟨d, hd, hlt, rfl⟩ := emitByte_eq_ok.1 h
  exact emitByte_eq_ok.2 ⟨d, hd, hlt, rfl⟩

theorem copyBytes_withParams {n src dst : Nat} {s t : State} (p : Params)
    (h : copyBytes n src dst s = .ok t) :
    copyBytes n src dst (s.withParams p) = .ok (t.withParams p) := by
  induction n generalizing src dst s with
  | zero => cases h; rfl
  | succ n ih =>
    simp only [copyBytes, bind_eq_ok, writeOb_eq_ok, readOb_eq_ok] at h ⊢
    obtain ⟨v, hv, _, ⟨d, hd, hlt, rfl⟩, h⟩ := h
    exact ⟨v, hv, _, ⟨d, hd, hlt, rfl⟩, ih h⟩

theorem exhaust_withParams {s : State} {p : Params} (hp : p.strict = s.params.strict) :
    (s.withParams p).exhaust = s.exhaust.withParams p := by
  have hp' : (s.withParams p).params.strict = s.params.strict := hp
  rw [State.exhaust, State.exhaust, hp']
  split <;> rfl

theorem execEsc_withParams {v : Byte} {s t : State} (p : Params) (h : execEsc v s = .next t) :
    execEsc v (s.withParams p) = .next (t.withParams p) := by
  simp only [execEsc, answer_eq_next, bind_eq_ok, tokenContext_withParams] at h ⊢
  obtain ⟨c, hc, h⟩ := h
  refine ⟨c, hc, ?_⟩
  by_cases hst : c.straddles = true
  · rw [if_pos hst] at h ⊢
    cases h
    rfl
  · rw [if_neg hst] at h ⊢
    exact emitByte_withParams p h

/-- SYM reads the one entry its operand names. -/
theorem execSym_withParams {idx : SymIndex} {s t : State} {p : Params}
    (hidx : p.symbolTable[idx.toNat]? = s.params.symbolTable[idx.toNat]?)
    (h : execSym idx s = .next t) : execSym idx (s.withParams p) = .next (t.withParams p) := by
  have hread : readSym (s.withParams p) idx = readSym s idx := by
    have := idx.isLt
    simpa [readSym, State.withParams, this] using hidx
  simp only [execSym, answer_eq_next, bind_eq_ok, tokenContext_withParams, hread] at h ⊢
  obtain ⟨c, hc, h⟩ := h
  exact ⟨c, hc, emitByte_withParams p h⟩

theorem execBref_withParams {offset : RefOffset} {length : RefLength} {s t : State} (p : Params)
    (h : execBref offset length s = .next t) :
    execBref offset length (s.withParams p) = .next (t.withParams p) := by
  simp only [execBref, answer_eq_next, bind_eq_ok, tokenContext_withParams] at h ⊢
  obtain ⟨c, hc, h⟩ := h
  refine ⟨c, hc, ?_⟩
  by_cases hst : c.straddles = true
  · rw [if_pos hst] at h ⊢
    cases h
    rfl
  · rw [if_neg hst] at h ⊢
    by_cases hbad : c.badOffset offset = true
    · rw [if_pos hbad] at h ⊢
      cases h
      rfl
    · rw [if_neg hbad] at h ⊢
      obtain ⟨u, hu, h⟩ := bind_eq_ok.1 h
      cases h
      exact bind_eq_ok.2 ⟨_, copyBytes_withParams p hu, rfl⟩

/-- Two tables give the same tokens where they agree on the entries that well-formed SYM tokens name. -/
theorem exec_withParams {i : Instr} {s t : State} {p : Params} (hi : i.wellFormed = true)
    (hp : ∀ n : Nat, 1 ≤ n → n ≤ 0x3B → p.symbolTable[n]? = s.params.symbolTable[n]?)
    (h : exec i s = .next t) : exec i (s.withParams p) = .next (t.withParams p) := by
  cases i with
  | esc v => exact execEsc_withParams p h
  | sym idx =>
    obtain ⟨h1, h2⟩ := wellFormed_sym_iff.1 hi
    exact execSym_withParams (hp _ h1 h2) h
  | bref offset length => exact execBref_withParams p h

theorem stepDecode_withParams {s t : State} {p : Params} (hstrict : p.strict = s.params.strict)
    (hp : ∀ n : Nat, 1 ≤ n → n ≤ 0x3B → p.symbolTable[n]? = s.params.symbolTable[n]?)
    (h : stepDecode s = .next t) : stepDecode (s.withParams p) = .next (t.withParams p) := by
  obtain ⟨m, hm, hcases⟩ := stepDecode_cases h
  rw [stepDecode, loopMove_withParams, hm]
  rcases hcases with ⟨rfl, rfl⟩ | ⟨rfl, rfl⟩ | ⟨rfl, rfl⟩ | ⟨i, rfl, h⟩
  · rfl
  · exact congrArg _ (exhaust_withParams hstrict)
  · rfl
  · exact exec_withParams (wellFormed_of_loopMove hm) hp h

theorem sequencerStep_withParams {s t : State} {p : Params} (hstrict : p.strict = s.params.strict)
    (hp : ∀ n : Nat, 1 ≤ n → n ≤ 0x3B → p.symbolTable[n]? = s.params.symbolTable[n]?)
    (h : sequencerStep s = .next t) :
    sequencerStep (s.withParams p) = .next (t.withParams p) := by
  rcases sequencerStep_cases h with ⟨hphase, h⟩ | ⟨hphase, h⟩ | ⟨hphase, h⟩ | ⟨hphase, h⟩
  · rw [sequencerStep_extract (s := s.withParams p) hphase, answer_eq_next]
    obtain ⟨w, hh, hw, hh', hl, rfl⟩ := stepExtract_eq_ok.1 h
    exact stepExtract_eq_ok.2 ⟨w, hh, hw, hh', hl, rfl⟩
  · rw [sequencerStep_split (s := s.withParams p) hphase, answer_eq_next]
    obtain ⟨n, hn, ⟨hl, rfl⟩ | ⟨hl, v, hv, rfl⟩⟩ := stepSplit_eq_ok.1 h
    · exact stepSplit_eq_ok.2 ⟨n, hn, .inl ⟨hl, rfl⟩⟩
    · exact stepSplit_eq_ok.2 ⟨n, hn, .inr ⟨hl, v, hv, rfl⟩⟩
  · rw [sequencerStep_gate (s := s.withParams p) hphase, answer_eq_next]
    obtain ⟨v, hv, ⟨hl, rfl⟩ | ⟨hl, d, hd, rfl⟩⟩ := stepGate_eq_ok.1 h
    · exact stepGate_eq_ok.2 ⟨v, hv, .inl ⟨hl, rfl⟩⟩
    · exact stepGate_eq_ok.2 ⟨v, hv, .inr ⟨hl, d, hd, rfl⟩⟩
  · rw [sequencerStep_decode (s := s.withParams p) hphase]
    exact stepDecode_withParams hstrict hp h

/-- Settles O45: only SYM reads the table, and the tokens the loop fetches are well formed. -/
theorem unreachableSymbolsNeverRead : Obligations.UnreachableSymbolsNeverRead := by
  intro s t p hs hstrict hp h
  rw [step_of_schedule_nil hs] at h
  rw [step_of_schedule_nil (s := { s with params := p }) hs]
  exact sequencerStep_withParams hstrict hp h

/-! ### OB filled from position 0 on -/

/-- A memory filled from `a` on reads its bytes in order, and nothing beyond them. -/
theorem read_of_positions {m : List Host.Cell} {a n : Nat} (h : m.map Prod.fst = List.range' a n)
    (k : Nat) : Memory.read obUnlisted m (a + k) = (m.map Prod.snd)[k]? := by
  induction m generalizing a n k with
  | nil => rfl
  | cons c m ih =>
    obtain ⟨x, v⟩ := c
    obtain ⟨rfl, -, hrest⟩ := List.range'_eq_cons_iff.1 h.symm
    cases k with
    | zero => simp [Memory.read]
    | succ k =>
      rw [Memory.read, if_neg (by omega), show a + (k + 1) = a + 1 + k by omega, ih hrest]
      rfl

theorem wf_of_positions {m : List Host.Cell} {a n : Nat} (h : m.map Prod.fst = List.range' a n) :
    Memory.wf obUnlisted m = true := by
  induction m generalizing a n with
  | nil => rfl
  | cons c m ih =>
    obtain ⟨x, v⟩ := c
    obtain ⟨rfl, -, hrest⟩ := List.range'_eq_cons_iff.1 h.symm
    refine (Memory.wf_cons ..).2 ⟨nofun, fun c hc => ?_, ih hrest⟩
    have hmem : c.1 ∈ List.range' (a + 1) (n - 1) := hrest ▸ List.mem_map_of_mem hc
    exact (List.mem_range'_1.1 hmem).1

/-- OB holds the bytes of its first `n` positions and no others (10_state.md R30). -/
theorem read_ob_of_range {m : List Host.Cell} {n : Nat} (h : m.map Prod.fst = List.range n)
    (k : Nat) : Memory.read obUnlisted m k = (m.map Prod.snd)[k]? := by
  rw [List.range_eq_range'] at h
  simpa using read_of_positions h k

/-- A byte written at the first empty position goes to the end. -/
theorem write_at_end {m : List Host.Cell} {n : Nat} (h : m.map Prod.fst = List.range n) (v : Byte) :
    Memory.write obUnlisted m n v = m ++ [(n, v)] := by
  rw [Memory.write, if_neg nofun]
  refine Memory.insert_at_end n v m fun c hc => ?_
  have hmem : c.1 ∈ List.range n := h ▸ List.mem_map_of_mem hc
  exact List.mem_range.1 hmem

theorem positions_append {m l : List Host.Cell} {n : Nat} (hm : m.map Prod.fst = List.range n)
    (hl : l.map Prod.fst = List.range' n l.length) :
    (m ++ l).map Prod.fst = List.range (n + l.length) := by
  rw [List.map_append, hm, hl, List.range_eq_range', List.range_eq_range']
  simpa using List.range'_append (s := 0) (m := n) (n := l.length) (step := 1)

/-- A copy to the first empty position appends the copied bytes. -/
theorem copyBytes_appends {n src dst : Nat} {s t : State} (h : copyBytes n src dst s = .ok t)
    (hs : s.ob.map Prod.fst = List.range dst) :
    ∃ cells, t.ob = s.ob ++ cells ∧ cells.length = n ∧ cells.map Prod.fst = List.range' dst n := by
  induction n generalizing src dst s with
  | zero =>
    cases h
    exact ⟨[], by simp, rfl, rfl⟩
  | succ n ih =>
    simp only [copyBytes, bind_eq_ok, writeOb_eq_ok] at h
    obtain ⟨v, -, _, ⟨d, -, -, rfl⟩, h⟩ := h
    have hob : (s.setOb dst v).ob = s.ob ++ [(dst, v)] := write_at_end hs v
    obtain ⟨cells, hcells, hlen, hpos⟩ := ih h (by rw [hob]; exact positions_append hs rfl)
    exact ⟨(dst, v) :: cells, by rw [hcells, hob, List.append_assoc]; rfl,
      by simp [hlen], by simp [hpos, List.range'_succ]⟩

/-! ### What a token and a DECODE step do to a running decompressor -/

/-- The bytes a token emits at `OUT_CUR`: they lie below DLEN, the token's `b` bytes of input lie in the region, and at
most 17 bytes of output come of two of input (43_decompressor_control.md R95). -/
structure Emission (i : InCursor) (o d : OutCursor) (cells : List Host.Cell) (b : Nat) : Prop where
  positions : cells.map Prod.fst = List.range' o.toNat cells.length
  inRegion : i.toNat + b ≤ Config.codeLen
  belowDlen : o.toNat + cells.length ≤ d.toNat
  ratio : 2 * cells.length ≤ 17 * b

/-- The state after a token of `b` bytes of input has emitted `cells`. -/
def State.emit (s : State) (i : InCursor) (o : OutCursor) (cells : List Host.Cell) (b : Nat) : State :=
  ({ s with ob := s.ob ++ cells }.setOutCur (o.toNat + cells.length)).setInCur (i.toNat + b)

theorem State.AtToken.tokenContext_eq {s : State} {i : InCursor} {o d : OutCursor}
    (h : s.AtToken i o d) : tokenContext s = .ok ⟨i.toNat, o.toNat, d.toNat⟩ :=
  tokenContext_eq_ok.2 ⟨i, o, d, h.inCur, h.outCur, h.dlen, h.phase, h.outBelow, h.inBelow, rfl⟩

/-- Where OB is filled up to OUT_CUR, a byte emitted there is an emission of one cell. -/
theorem emission_of_emitByte {s : State} {i : InCursor} {o d : OutCursor} (hat : s.AtToken i o d)
    (hob : s.ob.map Prod.fst = List.range o.toNat) (v : Byte) {b : Nat} (hb : 1 ≤ b)
    (hin : i.toNat + b ≤ Config.codeLen) :
    Emission i o d [(o.toNat, v)] b ∧
      ((s.setOb o.toNat v).setOutCur (o.toNat + 1)).setInCur (i.toNat + b) =
        s.emit i o [(o.toNat, v)] b := by
  refine ⟨⟨rfl, hin, hat.outBelow, ?_⟩, ?_⟩
  · show 2 * 1 ≤ 17 * b
    omega
  · rw [State.setOb, write_at_end hob]
    rfl

/-- A straddle emits nothing and takes the region's last byte (43_decompressor_control.md R91). -/
theorem emission_of_straddle {s : State} {i : InCursor} {o d : OutCursor} (hat : s.AtToken i o d)
    (hlast : Config.codeLen ≤ i.toNat + 1) :
    Emission i o d [] 1 ∧ s.straddle = s.emit i o [] 1 := by
  have hin := hat.inBelow
  have hi : i.toNat + 1 = Config.codeLen := by omega
  refine ⟨⟨rfl, hin, hat.outBelow.le, Nat.zero_le _⟩, ?_⟩
  simp [State.straddle, State.emit, State.setOutCur, State.setInCur, hi, ← hat.outCur]

/-- What a token can do: raise BAD_REFERENCE, or emit. -/
theorem exec_cases {s t : State} {i : InCursor} {o d : OutCursor} {instr : Instr}
    (hat : s.AtToken i o d) (hob : s.ob.map Prod.fst = List.range o.toNat)
    (hw : instr.wellFormed = true) (h : exec instr s = .next t) :
    (∃ offset length,
      t = (s.setInCur (i.toNat + 1)).raise s .badReference (.reference offset length)) ∨
    ∃ cells b, Emission i o d cells b ∧ t = s.emit i o cells b := by
  have hin := hat.inBelow
  have hcontext := hat.tokenContext_eq
  cases instr with
  | esc v =>
    obtain ⟨c, hc, hcases⟩ := execEsc_cases h
    cases hcontext.symm.trans hc
    rcases hcases with ⟨hst, rfl⟩ | ⟨hst, rfl⟩
    · obtain ⟨he, heq⟩ := emission_of_straddle hat (of_decide_eq_true hst)
      exact .inr ⟨_, _, he, heq⟩
    · have hnext : ¬(i.toNat + 1 ≥ Config.codeLen) := of_decide_eq_false hst
      obtain ⟨he, heq⟩ := emission_of_emitByte hat hob v (b := 2) (by omega) (by omega)
      exact .inr ⟨_, _, he, heq⟩
  | sym idx =>
    obtain ⟨c, hc, rfl⟩ := execSym_cases h
    cases hcontext.symm.trans hc
    obtain ⟨he, heq⟩ := emission_of_emitByte hat hob (readSym s idx) (b := 1) (by omega) (by omega)
    exact .inr ⟨_, _, he, heq⟩
  | bref offset length =>
    obtain ⟨c, hc, hcases⟩ := execBref_cases h
    cases hcontext.symm.trans hc
    rcases hcases with ⟨hst, rfl⟩ | ⟨-, -, rfl⟩ | ⟨hst, -, u, hu, rfl⟩
    · obtain ⟨he, heq⟩ := emission_of_straddle hat (of_decide_eq_true hst)
      exact .inr ⟨_, _, he, heq⟩
    · exact .inl ⟨offset, length, rfl⟩
    · have hnext : ¬(i.toNat + 1 ≥ Config.codeLen) := of_decide_eq_false hst
      have hlt := hat.outBelow
      obtain ⟨-, -, hlen⟩ := wellFormed_bref_iff.1 hw
      obtain ⟨cells, hcells, hn, hpos⟩ := copyBytes_appends hu hob
      have hlength : cells.length ≤ length.toNat := hn ▸ Nat.min_le_left ..
      have hroom : cells.length ≤ d.toNat - o.toNat := hn ▸ Nat.min_le_right ..
      refine .inr ⟨cells, 2, ⟨hn ▸ hpos, by omega, by omega, by omega⟩, ?_⟩
      rw [State.emit, hn, ← hcells, ← copyBytes_only_ob hu]

theorem State.HasProgress.facts {s : State} {i : InCursor} {o d : OutCursor} (h : s.HasProgress)
    (hi : s.inCur = some i) (ho : s.outCur = some o) (hd : s.dlen = some d) :
    readCrPair s Config.dlenAddr = .ok d ∧
    (∃ v, s.version = some v ∧ v ∈ Config.versionsOk) ∧
    Config.tokenStart ≤ i.toNat ∧ i.toNat ≤ Config.codeLen ∧
    o.toNat ≤ d.toNat ∧ 2 * o.toNat ≤ 17 * (i.toNat - Config.tokenStart) ∧
    s.ob.map Prod.fst = List.range o.toNat := by
  obtain ⟨d', o', i', hd', ho', hi', hfacts⟩ := h
  cases hi.symm.trans hi'
  cases ho.symm.trans ho'
  cases hd.symm.trans hd'
  exact hfacts

theorem State.HasProgress.positions {s : State} {o : OutCursor} (h : s.HasProgress)
    (ho : s.outCur = some o) : s.ob.map Prod.fst = List.range o.toNat := by
  obtain ⟨d, o', i, -, ho', -, -, -, -, -, -, -, hpos⟩ := h
  cases ho.symm.trans ho'
  exact hpos

/-- What a DECODE step can do to a running decompressor: end full, end or fail with the input spent, raise
BAD_REFERENCE, or emit. -/
theorem stepDecode_outcomes {s t : State} (hp : s.phase = .decode) (hprog : s.HasProgress)
    (h : stepDecode s = .next t) :
    ∃ (i : InCursor) (o d : OutCursor), s.inCur = some i ∧ s.outCur = some o ∧ s.dlen = some d ∧
      ((d.toNat ≤ o.toNat ∧ t = s.complete) ∨
       (o.toNat < d.toNat ∧ Config.codeLen ≤ i.toNat ∧ t = s.exhaust) ∨
       (s.AtToken i o d ∧ ∃ offset length,
        t = (s.setInCur (i.toNat + 1)).raise s .badReference (.reference offset length)) ∨
       (s.AtToken i o d ∧ ∃ cells b, Emission i o d cells b ∧ t = s.emit i o cells b)) := by
  obtain ⟨m, hm, -⟩ := stepDecode_cases h
  obtain ⟨o, d, i, ho, hd, hi, hmove⟩ := loopMove_cases hm
  refine ⟨i, o, d, hi, ho, hd, ?_⟩
  rw [stepDecode, hm] at h
  rcases hmove with ⟨hfull, rfl⟩ | ⟨hlt, hspent, rfl⟩ | ⟨hlt, hin, hlast, rfl⟩ |
    ⟨hlt, hin, bytes, instr, -, hdec, rfl⟩
  · cases h
    exact .inl ⟨hfull, rfl⟩
  · cases h
    exact .inr (.inl ⟨hlt, hspent, rfl⟩)
  · cases h
    have hat : s.AtToken i o d := ⟨hp, hi, ho, hd, hlt, hin⟩
    obtain ⟨he, heq⟩ := emission_of_straddle hat hlast
    exact .inr (.inr (.inr ⟨hat, _, _, he, heq⟩))
  · have hat : s.AtToken i o d := ⟨hp, hi, ho, hd, hlt, hin⟩
    have hexec := exec_cases hat (hprog.positions ho) (wellFormed_of_decode hdec) h
    exact .inr (.inr (by simpa only [hat, true_and] using hexec))

/-! ### Written positions -/

theorem exhaust_ob (s : State) : s.exhaust.ob = s.ob := by
  rcases exhaust_cases s with ⟨-, h⟩ | ⟨-, h⟩ <;> rw [h] <;> rfl

/-- A DECODE step only appends to OB. -/
theorem stepDecode_appends {s t : State} (hp : s.phase = .decode) (hprog : s.HasProgress)
    (h : stepDecode s = .next t) :
    ∃ o cells, s.outCur = some o ∧ t.ob = s.ob ++ cells ∧
      cells.map Prod.fst = List.range' o.toNat cells.length := by
  obtain ⟨i, o, d, -, ho, -, ⟨-, rfl⟩ | ⟨-, -, rfl⟩ | ⟨-, _, _, rfl⟩ |
    ⟨-, cells, b, he, rfl⟩⟩ := stepDecode_outcomes hp hprog h
  · exact ⟨o, [], ho, (List.append_nil _).symm, rfl⟩
  · exact ⟨o, [], ho, by rw [exhaust_ob, List.append_nil], rfl⟩
  · exact ⟨o, [], ho, (List.append_nil _).symm, rfl⟩
  · exact ⟨o, cells, ho, rfl, he.positions⟩

/-- Settles O37: OB is filled from position 0 on, so what a DECODE step appends lies behind every written position. -/
theorem writtenPositionsStay : Obligations.WrittenPositionsStay := by
  intro s t a v hinv hs hp h hv
  obtain ⟨-, -, hprog⟩ := hinv.atDecode hp
  rw [step_of_schedule_nil hs, sequencerStep_decode hp] at h
  obtain ⟨o, cells, ho, hob, hcells⟩ := stepDecode_appends hp hprog h
  have hpos := hprog.positions ho
  rw [read_ob_of_range hpos] at hv
  rw [hob, read_ob_of_range (positions_append hpos hcells), List.map_append]
  obtain ⟨hlt, -⟩ := List.getElem?_eq_some_iff.1 hv
  rwa [List.getElem?_append_left hlt]

/-! ### The host's reads at an end -/

/-- Text that OB holds from `a` on is what `readText` reads there. -/
theorem readText_of_read {s : State} {a : Nat} {text : List Byte}
    (h : ∀ k, k < text.length → Memory.read obUnlisted s.ob (a + k) = text[k]?) :
    readText s a text.length = some text := by
  induction text generalizing a with
  | nil => rfl
  | cons v text ih =>
    have hv : Memory.read obUnlisted s.ob a = some v := h 0 (by simp)
    have hrest : readText s (a + 1) text.length = some text := ih fun k hk => by
      rw [Nat.add_right_comm]
      exact h (k + 1) (by simpa using hk)
    rw [List.length_cons, readText, hv, hrest]

/-- At an end OB holds exactly the result, and the stream is long enough for every region. -/
theorem State.Inv.result {s : State} (h : s.Inv) (hp : s.phase = .done ∨ s.phase = .truncated) :
    ∃ (n : OutCursor) (len : Nat), s.resultLen = some n ∧ s.ob.map Prod.fst = List.range n.toNat ∧
      s.fbLen = some len ∧ Config.minStream ≤ len := by
  rcases hp with hp | hp
  · obtain ⟨-, ⟨len, v, hlen, hmin, -, -⟩, hprog, hfull, hres⟩ := h.atDone hp
    obtain ⟨d, o, i, hd, ho, -⟩ := id hprog
    exact ⟨o, len, hres.trans (hfull.symm.trans ho), hprog.positions ho, hlen, hmin⟩
  · obtain ⟨-, ⟨len, v, hlen, hmin, -, -⟩, hprog, -, hres, -⟩ := h.atTruncated hp
    obtain ⟨d, o, i, hd, ho, -⟩ := id hprog
    exact ⟨o, len, hres.trans ho, hprog.positions ho, hlen, hmin⟩

/-- Settles O39: at an end the text is the bytes of OB in order; in every other phase the interface is shut. -/
theorem hostReadsOnlyEndedResults : Obligations.HostReadsOnlyEndedResults := by
  intro s hinv
  split
  · next hp =>
    obtain ⟨n, len, hres, hpos, hlen, hmin⟩ := hinv.result hp
    have hread := read_ob_of_range hpos
    have hlength : (s.ob.map Prod.snd).length = n.toNat := by
      simpa using congrArg List.length hpos
    have hresult : hostResultLen s = some n := by
      rw [hostResultLen, if_pos ((Phase.hasResult_iff _).2 hp), hres]
    refine ⟨n, s.ob.map Prod.snd, hresult, hres, ?_, hlength, fun k _ => hread k, fun k => ?_,
      fun x k hk => ?_⟩
    · simp only [hostText, hresult, ← hlength]
      exact readText_of_read fun k _ => by rw [Nat.zero_add, hread]
    · simp only [hostTextByte, hresult]
      split
      · exact hread k
      · exact (List.getElem?_eq_none (by omega)).symm
    · obtain ⟨v, hv⟩ := readFb_long hlen hmin (Region.base_add_lt hk)
      rw [hostRegion_of_readFb hp hk hv]
      exact Option.some_ne_none v
  · next hp => exact host_reads_nothing hp

/-! ### The invariant by its parts -/

/-- FB is canonical and lies below `FB_LEN` (10_state.md R29). -/
def State.FbForm (s : State) : Prop :=
  Memory.wf fbUnlisted s.fb = true ∧ ∀ c ∈ s.fb, ∃ n, s.fbLen = some n ∧ c.1 < n

/-- When ERR, ERR_INFO and RESULT_LEN hold a value (10_state.md R21, R22, R27). -/
def State.Flags (s : State) : Prop :=
  (s.err = .none ↔ s.phase ≠ .error) ∧ (s.errInfo = none ↔ s.err = .none) ∧
    (s.resultLen ≠ none → s.phase = .done ∨ s.phase = .truncated)

/-- What the invariant says of the registers and OB in each phase. -/
def State.PhaseFacts (s : State) : Phase → Prop
  | .idle => s.gridW = none ∧ s.gridH = none ∧ s.fbLen = none ∧ s.fb = [] ∧
      s.version = none ∧ s.CursorsClear ∧ s.ob = []
  | .extract => (∃ w h, s.gridW = some w ∧ s.gridH = some h ∧ s.pix.length = w * h) ∧
      s.version = none ∧ s.CursorsClear
  | .split => s.HasStream ∧ s.version = none ∧ s.CursorsClear
  | .gate => s.HasStream ∧ s.HasVersion ∧ s.CursorsClear
  | .decode => s.HasStream ∧ s.HasVersion ∧ s.HasProgress
  | .done => s.HasStream ∧ s.HasVersion ∧ s.HasProgress ∧ s.outCur = s.dlen ∧ s.resultLen = s.dlen
  | .truncated => s.HasStream ∧ s.HasVersion ∧ s.HasProgress ∧ s.outCur ≠ s.dlen ∧
      s.resultLen = s.outCur ∧ s.inCur = some (BitVec.ofNat 14 Config.codeLen) ∧
      s.params.strict = false
  | .error => True

theorem inv_of_parts {s : State} (hfb : s.FbForm) (hob : Memory.wf obUnlisted s.ob = true)
    (hflags : s.Flags) (hphase : s.PhaseFacts s.phase) : s.Inv where
  fbForm := hfb.1
  fbInside := hfb.2
  obForm := hob
  errOnlyInError := hflags.1
  infoOnlyWithErr := hflags.2.1
  resultOnlyAtEnd := hflags.2.2
  atIdle hp := by rwa [hp] at hphase
  atExtract hp := by rwa [hp] at hphase
  atSplit hp := by rwa [hp] at hphase
  atGate hp := by rwa [hp] at hphase
  atDecode hp := by rwa [hp] at hphase
  atDone hp := by rwa [hp] at hphase
  atTruncated hp := by rwa [hp] at hphase

theorem State.Inv.fb {s : State} (h : s.Inv) : s.FbForm := ⟨h.fbForm, h.fbInside⟩

/-- While an operation runs it has neither an error nor a result. -/
theorem State.Inv.clean {s : State} (h : s.Inv) (hb : s.busy = true) :
    s.err = .none ∧ s.errInfo = none ∧ s.resultLen = none := by
  have hp : s.phase ≠ .error ∧ ¬(s.phase = .done ∨ s.phase = .truncated) := by
    rw [State.busy] at hb
    cases hphase : s.phase <;> simp_all [Phase.busy]
  have herr := h.errOnlyInError.2 hp.1
  exact ⟨herr, h.infoOnlyWithErr.2 herr, by_contra fun hr => hp.2 (h.resultOnlyAtEnd hr)⟩

theorem flags_of_no_error {s : State} (herr : s.err = .none) (hinfo : s.errInfo = none)
    (hphase : s.phase ≠ .error)
    (hres : s.resultLen = none ∨ s.phase = .done ∨ s.phase = .truncated) : s.Flags :=
  ⟨iff_of_true herr hphase, iff_of_true hinfo herr, fun h => hres.resolve_left h⟩

/-- Error entry keeps the forms of the memories, and ERROR asks nothing else of the registers. -/
theorem raise_inv {s start : State} {e : Err} {info : ErrValue} (hfb : s.FbForm)
    (hob : Memory.wf obUnlisted s.ob = true) (hres : s.resultLen = none) (he : e ≠ .none) :
    (s.raise start e info).Inv :=
  inv_of_parts hfb hob
    ⟨iff_of_false he fun h => h rfl, iff_of_false nofun he, fun h => absurd hres h⟩ trivial

/-! ### The host's turns keep the invariant -/

theorem setSchedule_inv {s : State} (h : s.Inv) (ts : List Turn) : (s.setSchedule ts).Inv :=
  { h with }

theorem hostReset_inv (s : State) : (hostReset s).Inv :=
  inv_of_parts ⟨rfl, nofun⟩ rfl (flags_of_no_error rfl rfl nofun (.inl rfl))
    ⟨rfl, rfl, rfl, rfl, rfl, ⟨rfl, rfl, rfl⟩, rfl⟩

/-- Settles O3: the reset state is what RESET makes of itself. -/
theorem resetStateMeetsInvariant : Obligations.ResetStateMeetsInvariant :=
  hostReset_inv State.reset

theorem begin_inv {s : State} (h : s.Inv) {w hh : Nat} {pix : List Pixel}
    (hl : pix.length = w * hh) : (s.begin w hh pix).Inv :=
  inv_of_parts h.fb h.obForm (flags_of_no_error rfl rfl nofun (.inl rfl))
    ⟨⟨w, hh, rfl, rfl, hl⟩, rfl, rfl, rfl, rfl⟩

/-! ### The stages keep the invariant -/

theorem busy_of_phase {s : State} {p : Phase} (h : s.phase = p) (hp : p.busy = true) :
    s.busy = true := by rwa [State.busy, h]

theorem stepExtract_inv {s t : State} (h : s.Inv) (hp : s.phase = .extract)
    (hs : stepExtract s = .ok t) : t.Inv := by
  obtain ⟨w, hh, hw, hh', hl, rfl⟩ := stepExtract_eq_ok.1 hs
  obtain ⟨herr, hinfo, hres⟩ := h.clean (busy_of_phase hp rfl)
  obtain ⟨-, hver, hclear⟩ := h.atExtract hp
  refine inv_of_parts ⟨packCells_wf _ _, fun c hc => ⟨w * hh, rfl, ?_⟩⟩ h.obForm
    (flags_of_no_error herr hinfo nofun (.inl hres)) ⟨⟨w, hh, hw, hh', rfl⟩, hver, hclear⟩
  have := (packCells_range _ _ c hc).2
  omega

theorem stepSplit_inv {s t : State} (h : s.Inv) (hp : s.phase = .split)
    (hs : stepSplit s = .ok t) : t.Inv := by
  obtain ⟨herr, hinfo, hres⟩ := h.clean (busy_of_phase hp rfl)
  obtain ⟨hstream, -, hclear⟩ := h.atSplit hp
  obtain ⟨n, hn, ⟨-, rfl⟩ | ⟨hl, v, hv, rfl⟩⟩ := stepSplit_eq_ok.1 hs
  · exact raise_inv h.fb h.obForm hres nofun
  · exact inv_of_parts h.fb h.obForm (flags_of_no_error herr hinfo nofun (.inl hres))
      ⟨hstream, ⟨n, v, hn, hl, rfl, hv⟩, hclear⟩

theorem stepGate_inv {s t : State} (h : s.Inv) (hp : s.phase = .gate)
    (hs : stepGate s = .ok t) : t.Inv := by
  obtain ⟨herr, hinfo, hres⟩ := h.clean (busy_of_phase hp rfl)
  obtain ⟨hstream, hversion, -⟩ := h.atGate hp
  obtain ⟨v, hv, ⟨-, rfl⟩ | ⟨hok, d, hd, rfl⟩⟩ := stepGate_eq_ok.1 hs
  · exact raise_inv h.fb h.obForm hres nofun
  · have hprog : (s.openDecode d).HasProgress :=
      ⟨d, 0, BitVec.ofNat 14 Config.tokenStart, rfl, rfl, rfl, hd, ⟨v, hv, hok⟩, by decide,
        by decide, Nat.zero_le _, Nat.zero_le _, rfl⟩
    exact inv_of_parts h.fb rfl (flags_of_no_error herr hinfo nofun (.inl hres))
      ⟨hstream, hversion, hprog⟩

/-! ### The DECODE step keeps the invariant -/

/-- Progress after `b` more bytes of input and `cells` more of output. -/
theorem emit_hasProgress {s : State} {i : InCursor} {o d : OutCursor} {cells : List Host.Cell}
    {b : Nat} (hprog : s.HasProgress) (hat : s.AtToken i o d) (he : Emission i o d cells b) :
    (s.emit i o cells b).HasProgress := by
  obtain ⟨hcr, hver, hstart, -, -, hratio, hpos⟩ := hprog.facts hat.inCur hat.outCur hat.dlen
  obtain ⟨hcells, hin, hout, hmore⟩ := he
  have hcode : Config.codeLen = 0x3D00 := rfl
  have hi : (BitVec.ofNat 14 (i.toNat + b)).toNat = i.toNat + b := by
    rw [BitVec.toNat_ofNat, Nat.mod_eq_of_lt (by omega)]
  have ho : (BitVec.ofNat 16 (o.toNat + cells.length)).toNat = o.toNat + cells.length := by
    have := d.isLt
    rw [BitVec.toNat_ofNat, Nat.mod_eq_of_lt (by omega)]
  refine ⟨d, _, _, hat.dlen, rfl, rfl, hcr, hver, by omega, by omega, by omega, by omega, ?_⟩
  rw [ho]
  exact positions_append hpos hcells

theorem emit_inv {s : State} {i : InCursor} {o d : OutCursor} {cells : List Host.Cell} {b : Nat}
    (h : s.Inv) (hat : s.AtToken i o d) (he : Emission i o d cells b) :
    (s.emit i o cells b).Inv := by
  obtain ⟨herr, hinfo, hres⟩ := h.clean (busy_of_phase hat.phase rfl)
  obtain ⟨hstream, hversion, hprog⟩ := h.atDecode hat.phase
  have hpos := positions_append (hprog.positions hat.outCur) he.positions
  rw [List.range_eq_range'] at hpos
  have hp : (s.emit i o cells b).phase = .decode := hat.phase
  refine inv_of_parts h.fb (wf_of_positions hpos)
    (flags_of_no_error herr hinfo (by rw [hp]; nofun) (.inl hres)) ?_
  rw [hp]
  exact ⟨hstream, hversion, emit_hasProgress hprog hat he⟩

theorem complete_inv {s : State} {o d : OutCursor} (h : s.Inv) (hp : s.phase = .decode)
    (ho : s.outCur = some o) (hd : s.dlen = some d) (hfull : d.toNat ≤ o.toNat) :
    s.complete.Inv := by
  obtain ⟨herr, hinfo, -⟩ := h.clean (busy_of_phase hp rfl)
  obtain ⟨hstream, hversion, hprog⟩ := h.atDecode hp
  obtain ⟨-, -, i, -, -, hi, -⟩ := id hprog
  obtain ⟨-, -, -, -, hle, -, -⟩ := hprog.facts hi ho hd
  have heq : o = d := BitVec.eq_of_toNat_eq (by omega)
  exact inv_of_parts h.fb h.obForm (flags_of_no_error herr hinfo nofun (.inr (.inl rfl)))
    ⟨hstream, hversion, hprog, by rw [State.complete_outCur, State.complete_dlen, ho, hd, heq], rfl⟩

theorem exhaust_inv {s : State} {i : InCursor} {o d : OutCursor} (h : s.Inv)
    (hp : s.phase = .decode) (hi : s.inCur = some i) (ho : s.outCur = some o)
    (hd : s.dlen = some d) (hlt : o.toNat < d.toNat) (hspent : Config.codeLen ≤ i.toNat) :
    s.exhaust.Inv := by
  obtain ⟨herr, hinfo, hres⟩ := h.clean (busy_of_phase hp rfl)
  obtain ⟨hstream, hversion, hprog⟩ := h.atDecode hp
  obtain ⟨-, -, -, hle, -, -, -⟩ := hprog.facts hi ho hd
  have hmissing : s.outCur ≠ s.dlen := by
    rw [ho, hd]
    rintro ⟨⟩
    exact lt_irrefl _ hlt
  have hend : i = BitVec.ofNat 14 Config.codeLen := BitVec.eq_of_toNat_eq (le_antisymm hle hspent)
  rcases exhaust_cases s with ⟨-, he⟩ | ⟨hstrict, he⟩ <;> rw [he]
  · exact raise_inv h.fb h.obForm hres nofun
  · exact inv_of_parts h.fb h.obForm (flags_of_no_error herr hinfo nofun (.inr (.inr rfl)))
      ⟨hstream, hversion, hprog, hmissing, rfl, hi.trans (congrArg some hend), hstrict⟩

theorem stepDecode_inv {s t : State} (h : s.Inv) (hp : s.phase = .decode)
    (hs : stepDecode s = .next t) : t.Inv := by
  obtain ⟨-, -, hres⟩ := h.clean (busy_of_phase hp rfl)
  obtain ⟨-, -, hprog⟩ := h.atDecode hp
  obtain ⟨i, o, d, hi, ho, hd, ⟨hfull, rfl⟩ | ⟨hlt, hspent, rfl⟩ | ⟨-, _, _, rfl⟩ |
    ⟨hat, cells, b, he, rfl⟩⟩ := stepDecode_outcomes hp hprog hs
  · exact complete_inv h hp ho hd hfull
  · exact exhaust_inv h hp hi ho hd hlt hspent
  · exact raise_inv (s := s.setInCur _) h.fb h.obForm hres nofun
  · exact emit_inv h hat he

theorem sequencerStep_inv {s t : State} (h : s.Inv) (hs : sequencerStep s = .next t) : t.Inv := by
  rcases sequencerStep_cases hs with ⟨hp, hs⟩ | ⟨hp, hs⟩ | ⟨hp, hs⟩ | ⟨hp, hs⟩
  · exact stepExtract_inv h hp hs
  · exact stepSplit_inv h hp hs
  · exact stepGate_inv h hp hs
  · exact stepDecode_inv h hp hs

/-- Settles O46, by the cases of a turn: each host command and each stage keeps the invariant. -/
theorem stepKeepsInvariant : Obligations.StepKeepsInvariant := by
  intro s t h hs
  rcases step_cases hs with ⟨-, hs⟩ | ⟨ts, -, hs⟩ | ⟨ts, -, rfl⟩ | ⟨ts, w, hh, pix, -, -, hl, rfl⟩
  · exact sequencerStep_inv h hs
  · exact sequencerStep_inv (setSchedule_inv h ts) hs
  · exact hostReset_inv _
  · exact begin_inv (setSchedule_inv h ts) hl

end Sys2Proof.Machine

/-! PROOF that no step of the DECODE phase writes the stream, DLEN, VERSION, the grid or the configuration. -/

namespace Sys2Proof.Machine

/-- `t` is `s` but for PHASE, ERR, ERR_INFO, the cursors, OB and RESULT_LEN, the fields a DECODE step may write. -/
def State.DecodeWrites (s t : State) : Prop :=
  t = { s with
    phase := t.phase, err := t.err, errInfo := t.errInfo, inCur := t.inCur, outCur := t.outCur,
    ob := t.ob, resultLen := t.resultLen }

theorem exec_decodeWrites {i : Instr} {s t : State} (h : exec i s = .next t) : s.DecodeWrites t := by
  cases i with
  | esc v =>
    obtain ⟨c, -, ⟨-, rfl⟩ | ⟨-, rfl⟩⟩ := execEsc_cases h
    · rfl
    · rfl
  | sym idx =>
    obtain ⟨c, -, rfl⟩ := execSym_cases h
    rfl
  | bref offset length =>
    obtain ⟨c, -, ⟨-, rfl⟩ | ⟨-, -, rfl⟩ | ⟨-, -, u, hu, rfl⟩⟩ := execBref_cases h
    · rfl
    · rfl
    · rw [copyBytes_only_ob hu]
      rfl

theorem exhaust_decodeWrites (s : State) : s.DecodeWrites s.exhaust := by
  rcases exhaust_cases s with ⟨-, h⟩ | ⟨-, h⟩
  · rw [h]
    rfl
  · rw [h]
    rfl

theorem stepDecode_decodeWrites {s t : State} (h : stepDecode s = .next t) : s.DecodeWrites t := by
  obtain ⟨m, -, ⟨-, rfl⟩ | ⟨-, rfl⟩ | ⟨-, rfl⟩ | ⟨i, -, hexec⟩⟩ := stepDecode_cases h
  · rfl
  · exact exhaust_decodeWrites s
  · rfl
  · exact exec_decodeWrites hexec

/-- Settles O26: none of the fields named is among those a DECODE step writes, and CR is a view of FB. -/
theorem decodeStepKeepsStream : Obligations.DecodeStepKeepsStream := by
  intro s t hs hp h
  rw [step_of_schedule_nil hs, sequencerStep_decode hp] at h
  rw [stepDecode_decodeWrites h]
  exact ⟨rfl, rfl, readCr_congr rfl rfl, rfl, rfl, rfl, rfl, rfl, rfl⟩

end Sys2Proof.Machine

/-! PROOFS of the statements about the encodings: what each control byte decodes to, the two round trips between bytes
and tokens, the operands of a back-reference, and the packed byte of a pixel. -/

namespace Sys2Proof

/-! ### The decoder, by the kind of the control byte -/

theorem decode_esc {c : Byte} (h : tokenKind c = .esc) (v : Byte) (rest : List Byte) :
    decode (c :: v :: rest) = .ok (.esc v, rest) := by
  simp only [decode, h]

theorem decode_sym {c : Byte} (h : tokenKind c = .sym) (rest : List Byte) :
    decode (c :: rest) = .ok (.sym (symOperand c), rest) := by
  simp only [decode, h]

theorem decode_bref {c : Byte} (h : tokenKind c = .bref) (b : Byte) (rest : List Byte) :
    decode (c :: b :: rest) = .ok (.bref (brefOffset c b) (brefLength b), rest) := by
  simp only [decode, h]

/-- Settles O10: each kind of control byte has one decoding, which takes the bytes R72 says. -/
theorem controlByteGivesLength : Obligations.ControlByteGivesLength := by
  refine ⟨fun c b rest => ?_, fun c rest i more h => ?_⟩
  · cases hk : tokenKind c with
    | esc => exact ⟨_, _, decode_esc hk b rest⟩
    | sym => exact ⟨_, _, decode_sym hk (b :: rest)⟩
    | bref => exact ⟨_, _, decode_bref hk b rest⟩
  · rcases decode_cases h with ⟨_, _, ⟨⟩, hk, -⟩ | ⟨_, ⟨⟩, hk, -⟩ | ⟨_, _, ⟨⟩, hk, -⟩
    · rw [tokenKind_esc_iff] at hk
      rw [if_neg (by omega)]
      rfl
    · rw [if_pos (tokenKind_sym_iff.1 hk)]
      rfl
    · rw [tokenKind_bref_iff] at hk
      rw [if_neg (by omega)]
      rfl

/-! ### The exact covers -/

/-- The patterns and masks of R71 put one row on each of the 256 control bytes, a row of its kind. -/
theorem coverRows_fit_once :
    ∀ c : Byte, (coverRows.filter fun r => r.fits c).map CoverRow.kind = [tokenKind c] := by
  decide

theorem tokenLength_tokenKind (c : Byte) :
    tokenLength (tokenKind c) = if 0x01 ≤ c.toNat ∧ c.toNat ≤ 0x3B then 1 else 2 := by
  simp only [← tokenKind_sym_iff]
  cases tokenKind c <;> rfl

/-- Settles O9: the covers are checked at every byte, and the kinds are ranges of the control byte. -/
theorem controlByteCoversExact : Obligations.ControlByteCoversExact := by
  intro c
  have hmax := c.isLt
  refine ⟨coverRows_fit_once c, ?_, tokenKind_sym_iff, ?_, tokenLength_tokenKind c⟩
  · rw [tokenKind_esc_iff]
    exact BitVec.toNat_inj (x := c) (y := 0x00)
  · rw [tokenKind_bref_iff]
    omega

/-- Settles O11: the decoder is run on each word. -/
theorem sampleWordsDecode : Obligations.SampleWordsDecode := by
  unfold Obligations.SampleWordsDecode
  decide

/-! ### The operands of a back-reference -/

theorem brefOperands_in_range {c : Byte} (h : 0x3C ≤ c.toNat) (b : Byte) :
    (brefOffset c b).toNat ≤ 3135 ∧ 2 ≤ (brefLength b).toNat ∧ (brefLength b).toNat ≤ 17 :=
  wellFormed_bref_iff.1 (wellFormed_of_decode (decode_bref (tokenKind_bref_iff.2 h) b []))

/-- R70's inverse: quotient and remainder of the offset by 16 are the fields of the two bytes. -/
theorem brefOperands_eq_iff {c b : Byte} {offset : RefOffset} {length : RefLength}
    (hlength : 2 ≤ length.toNat) :
    (0x3C ≤ c.toNat ∧ brefOffset c b = offset ∧ brefLength b = length) ↔
      (c.toNat = 0x3C + offset.toNat / 16 ∧ b.toNat = (length.toNat - 2) * 16 + offset.toNat % 16) := by
  rw [← BitVec.toNat_inj, ← BitVec.toNat_inj, brefOffset_toNat, brefLength_toNat]
  omega

/-- Settles O7: the operands are in range, and R70's inverse is one. -/
theorem brefOperandsBijective : Obligations.BrefOperandsBijective :=
  ⟨fun _ b h => brefOperands_in_range h b, fun _ _ _ hlength _ _ _ => brefOperands_eq_iff hlength⟩

/-- The offset as R68 wires it: the control byte's distance from 0x3C above the low nibble of the second byte. -/
theorem brefOffset_eq_shift_or {c : Byte} (h : 0x3C ≤ c.toNat) (b : Byte) :
    brefOffset c b =
      (BitVec.setWidth 12 (c - 0x3C) <<< 4) ||| BitVec.setWidth 12 (b &&& 0x0F) := by
  have hc : (c - 0x3C).toNat = c.toNat - 0x3C := BitVec.toNat_sub_of_le h
  have hb : (b &&& 0x0F).toNat = b.toNat % 16 := by
    rw [BitVec.toNat_and]
    exact Nat.and_two_pow_sub_one_eq_mod b.toNat 4
  have hmax := c.isLt
  have hhigh : (BitVec.setWidth 12 (c - 0x3C) <<< 4).toNat = (c.toNat - 0x3C) <<< 4 := by
    rw [BitVec.toNat_shiftLeft, BitVec.toNat_setWidth, hc, Nat.shiftLeft_eq, Nat.shiftLeft_eq]
    omega
  have hlow : (BitVec.setWidth 12 (b &&& 0x0F)).toNat = b.toNat % 16 := by
    rw [BitVec.toNat_setWidth, hb]
    omega
  apply BitVec.eq_of_toNat_eq
  rw [brefOffset_toNat, BitVec.toNat_or, hhigh, hlow,
    ← Nat.shiftLeft_add_eq_or_of_lt (Nat.mod_lt _ (by decide)), Nat.shiftLeft_eq]

/-- Settles O8: the values of the two fields, and the wiring of R68. -/
theorem brefOperandValues : Obligations.BrefOperandValues := by
  intro c b h
  have hhigh : (b >>> 4).toNat = b.toNat / 16 := by
    rw [BitVec.toNat_ushiftRight, Nat.shiftRight_eq_div_pow]
  have hfield : (b.extractLsb' 4 4).toNat = b.toNat / 16 := by
    have := b.isLt
    rw [BitVec.extractLsb'_toNat, Nat.shiftRight_eq_div_pow, Nat.mod_eq_of_lt (by omega)]
  exact ⟨brefOffset_toNat c b, brefOffset_eq_shift_or h b, by rw [brefLength_toNat, hhigh],
    hhigh.trans hfield.symm, (brefOperands_in_range h b).2⟩

/-! ### The round trips -/

/-- The encoding of a SYM is the byte of its index. -/
theorem encode_sym_eq_iff {idx : SymIndex} {c : Byte} :
    encode (.sym idx) = [c] ↔ c.toNat = idx.toNat := by
  have := idx.isLt
  rw [encode, List.singleton_inj, ← BitVec.toNat_inj, BitVec.toNat_ofNat,
    Nat.mod_eq_of_lt (by omega), eq_comm]

/-- The encoding of a well-formed BREF is the pair of bytes R70 computes. -/
theorem encode_bref_eq_iff {offset : RefOffset} {length : RefLength} {c b : Byte}
    (hw : (Instr.bref offset length).wellFormed = true) :
    encode (.bref offset length) = [c, b] ↔
      c.toNat = 0x3C + offset.toNat / 16 ∧ b.toNat = (length.toNat - 2) * 16 + offset.toNat % 16 := by
  obtain ⟨hoffset, hmin, hmax⟩ := wellFormed_bref_iff.1 hw
  have hlow : offset.toNat &&& 0xF = offset.toNat % 16 :=
    Nat.and_two_pow_sub_one_eq_mod offset.toNat 4
  rw [encode, hlow, Nat.shiftRight_eq_div_pow, ← Nat.shiftLeft_add_eq_or_of_lt (by omega),
    Nat.shiftLeft_eq, List.cons.injEq, List.singleton_inj, ← BitVec.toNat_inj, ← BitVec.toNat_inj,
    BitVec.toNat_ofNat, BitVec.toNat_ofNat, Nat.mod_eq_of_lt (by simp only [Config.brefBase]; omega),
    Nat.mod_eq_of_lt (by omega), eq_comm, eq_comm (b := b.toNat)]

/-- The decoder undoes the encoder on SYM: the operand is the control byte. -/
theorem decode_encode_sym {idx : SymIndex} (hw : (Instr.sym idx).wellFormed = true)
    (rest : List Byte) : decode (encode (.sym idx) ++ rest) = .ok (.sym idx, rest) := by
  obtain ⟨hmin, hmax⟩ := wellFormed_sym_iff.1 hw
  have hc : (BitVec.ofNat 8 idx.toNat).toNat = idx.toNat := encode_sym_eq_iff.1 rfl
  have hk : tokenKind (BitVec.ofNat 8 idx.toNat) = .sym :=
    tokenKind_sym_iff.2 (by omega)
  have hidx : symOperand (BitVec.ofNat 8 idx.toNat) = idx :=
    BitVec.eq_of_toNat_eq ((symOperand_toNat (by omega)).trans hc)
  exact (decode_sym hk rest).trans (by rw [hidx])

/-- The decoder undoes the encoder on BREF, by R70. -/
theorem decode_encode_bref {offset : RefOffset} {length : RefLength}
    (hw : (Instr.bref offset length).wellFormed = true) (rest : List Byte) :
    decode (encode (.bref offset length) ++ rest) = .ok (.bref offset length, rest) := by
  obtain ⟨c, b, henc⟩ : ∃ c b, encode (.bref offset length) = [c, b] := ⟨_, _, rfl⟩
  obtain ⟨-, hmin, -⟩ := wellFormed_bref_iff.1 hw
  obtain ⟨hc, hoffset, hlength⟩ :=
    (brefOperands_eq_iff hmin).2 ((encode_bref_eq_iff hw).1 henc)
  rw [henc, ← hoffset, ← hlength]
  exact decode_bref (tokenKind_bref_iff.2 hc) b rest

/-- Settles O5, by the constructors of a token. -/
theorem decodeOfEncode : Obligations.DecodeOfEncode := by
  intro i rest hw
  cases i with
  | esc v => exact decode_esc (tokenKind_esc_iff.2 rfl) v rest
  | sym idx => exact decode_encode_sym hw rest
  | bref offset length => exact decode_encode_bref hw rest

/-- Settles O6, by the kind of the control byte: each operand's value gives the bytes back. -/
theorem encodeOfDecode : Obligations.EncodeOfDecode := by
  intro bytes i rest h
  have hw := wellFormed_of_decode h
  refine ⟨hw, ?_⟩
  rcases decode_cases h with ⟨c, v, rfl, hk, rfl⟩ | ⟨c, rfl, hk, rfl⟩ | ⟨c, b, rfl, hk, rfl⟩
  · have hc : c = 0x00 := BitVec.eq_of_toNat_eq (tokenKind_esc_iff.1 hk)
    rw [hc]
    rfl
  · have henc : encode (.sym (symOperand c)) = [c] :=
      encode_sym_eq_iff.2 (symOperand_toNat (tokenKind_sym_iff.1 hk).2).symm
    rw [henc]
    rfl
  · have hmin := (wellFormed_bref_iff.1 hw).2.1
    have henc : encode (.bref (brefOffset c b) (brefLength b)) = [c, b] :=
      (encode_bref_eq_iff hw).2
        ((brefOperands_eq_iff hmin).1 ⟨tokenKind_bref_iff.1 hk, rfl, rfl⟩)
    rw [henc]
    rfl

end Sys2Proof

namespace Sys2Proof.Machine

/-! ### The packed byte -/

/-- A channel's fragment, masked and put `k` bits up, is the value of its two low bits shifted. -/
theorem toNat_fragment (x : Byte) {k : Nat} (hk : k ≤ 6) :
    ((x &&& 3) <<< k).toNat = (x.extractLsb' 0 2).toNat <<< k := by
  have hlow : (x &&& 3).toNat = (x.extractLsb' 0 2).toNat := by
    rw [BitVec.toNat_and, BitVec.extractLsb'_toNat]
    exact Nat.and_two_pow_sub_one_eq_mod x.toNat 2
  have hbound : (x.extractLsb' 0 2).toNat <<< k < 2 ^ 8 := by
    calc (x.extractLsb' 0 2).toNat <<< k = (x.extractLsb' 0 2).toNat * 2 ^ k := Nat.shiftLeft_eq ..
      _ < 2 ^ 2 * 2 ^ k := by gcongr; exact (x.extractLsb' 0 2).isLt
      _ ≤ 2 ^ 2 * 2 ^ 6 := by gcongr; decide
  rw [BitVec.toNat_shiftLeft, hlow, Nat.mod_eq_of_lt hbound]

/-- Settles O14: concatenation is the same shifts, taken from the top fragment down. -/
theorem packConcatenatesLowBits : Obligations.PackConcatenatesLowBits := by
  intro p
  apply BitVec.eq_of_toNat_eq
  have ha := toNat_fragment p.a (k := 6) (by decide)
  have hr := toNat_fragment p.r (k := 4) (by decide)
  have hg := toNat_fragment p.g (k := 2) (by decide)
  have hb := toNat_fragment p.b (k := 0) (by decide)
  rw [BitVec.shiftLeft_zero, Nat.shiftLeft_zero] at hb
  simp only [pack, BitVec.toNat_or, BitVec.toNat_append, ha, hr, hg, hb, Nat.shiftLeft_or_distrib,
    ← Nat.shiftLeft_add]

end Sys2Proof.Machine

/-! PROOFS of the statements about COPY: its expansion, and that the expansion runs as one periodic copy. -/

namespace Sys2Proof.Machine

/-! ### The expansion of COPY -/

theorem toNat_ofNat_refLength {r : Nat} (h : r ≤ 17) : (BitVec.ofNat 5 r).toNat = r := by
  rw [BitVec.toNat_ofNat, Nat.mod_eq_of_lt (by omega)]

/-- The tokens are BREFs of one offset, of 2 to 17 bytes each, that sum to `r` bytes. -/
def AreBrefsOf (offset : RefOffset) (r : Nat) (tokens : List Instr) : Prop :=
  ∃ ls : List RefLength, tokens = ls.map (Instr.bref offset) ∧
    (∀ l ∈ ls, 2 ≤ l.toNat ∧ l.toNat ≤ 17) ∧ (ls.map BitVec.toNat).sum = r

theorem AreBrefsOf.single {offset : RefOffset} {r : Nat} (hmin : 2 ≤ r) (hmax : r ≤ 17) :
    AreBrefsOf offset r [.bref offset (BitVec.ofNat 5 r)] := by
  have hr := toNat_ofNat_refLength hmax
  refine ⟨[BitVec.ofNat 5 r], rfl, ?_, ?_⟩
  · exact List.forall_mem_singleton.2 (by omega)
  · rw [List.map_singleton, List.sum_singleton, hr]

theorem AreBrefsOf.cons {offset : RefOffset} {r n : Nat} {tokens : List Instr} (hmin : 2 ≤ n)
    (hmax : n ≤ 17) (hn : n ≤ r) (h : AreBrefsOf offset (r - n) tokens) :
    AreBrefsOf offset r (.bref offset (BitVec.ofNat 5 n) :: tokens) := by
  have hlen := toNat_ofNat_refLength hmax
  obtain ⟨ls, rfl, hrange, hsum⟩ := h
  refine ⟨BitVec.ofNat 5 n :: ls, rfl, ?_, ?_⟩
  · exact List.forall_mem_cons.2 ⟨by omega, hrange⟩
  · rw [List.map_cons, List.sum_cons, hsum, hlen, Nat.add_sub_cancel' hn]

/-- With enough fuel the expansion sums to the length: taking 16 where 17 would leave one byte keeps every rest at 2 or
more (30_encoding.md R75). -/
theorem expandCopy_areBrefsOf (offset : RefOffset) {fuel r : Nat} (hr : 2 ≤ r) (hfuel : r ≤ fuel) :
    AreBrefsOf offset r (expandCopy offset fuel r) := by
  induction fuel generalizing r with
  | zero => omega
  | succ fuel ih =>
    rw [expandCopy]
    split
    · split
      · exact .cons (n := 17) (by decide) le_rfl (by omega) (ih (by omega) (by omega))
      · exact .cons (n := 16) (by decide) (by decide) (by omega) (ih (by omega) (by omega))
    · exact .single hr (by omega)

theorem copyTokens_eq_some {offset : RefOffset} {length : Nat} {tokens : List Instr} :
    copyTokens offset length = some tokens ↔
      (1 ≤ offset.toNat ∧ offset.toNat ≤ 3135 ∧ 2 ≤ length) ∧
        expandCopy offset length length = tokens := by
  rw [copyTokens, Option.ite_none_right_eq_some, Option.some_inj]

/-- Settles O12: the fuel COPY gives its expansion is its length, which is enough. -/
theorem copyExpansionSumsToLength : Obligations.CopyExpansionSumsToLength := by
  intro offset length hmin hmax hlength
  obtain ⟨ls, hls, hrange, hsum⟩ := expandCopy_areBrefsOf offset hlength le_rfl
  exact ⟨ls, copyTokens_eq_some.2 ⟨⟨hmin, hmax, hlength⟩, hls⟩, hrange, hsum⟩

/-! ### Periodic copies -/

/-- `m'` is `m` after a copy of `n` bytes to `dst` from `p` positions back: every copied position holds what stands
`p` positions before it, and no other position has changed (44_decompressor_tokens.md R101, R103). -/
structure CopiedBack (p dst n : Nat) (m m' : List Host.Cell) : Prop where
  value : ∀ k, k < n →
    Memory.read obUnlisted m' (dst + k) = Memory.read obUnlisted m' (dst + k - p)
  frame : ∀ a, a < dst ∨ dst + n ≤ a → Memory.read obUnlisted m' a = Memory.read obUnlisted m a

theorem CopiedBack.refl (p dst : Nat) (m : List Host.Cell) : CopiedBack p dst 0 m m :=
  ⟨fun _ h => absurd h (Nat.not_lt_zero _), fun _ _ => rfl⟩

/-- A copy that goes on where another ended, from as far back, makes one copy with it. -/
theorem CopiedBack.trans {p dst n n' : Nat} {m m' m'' : List Host.Cell}
    (h : CopiedBack p dst n m m') (h' : CopiedBack p (dst + n) n' m' m'') :
    CopiedBack p dst (n + n') m m'' where
  value k hk := by
    by_cases hfirst : k < n
    · rw [h'.frame _ (by omega), h'.frame _ (by omega)]
      exact h.value k hfirst
    · have := h'.value (k - n) (by omega)
      rwa [show dst + n + (k - n) = dst + k by omega] at this
  frame a ha := (h'.frame a (by omega)).trans (h.frame a (by omega))

/-- A copy from `p` positions back repeats the `p` bytes before its destination (44_decompressor_tokens.md R103). -/
theorem CopiedBack.periodic {p dst n : Nat} {m m' : List Host.Cell} (h : CopiedBack p dst n m m')
    (hp : 1 ≤ p) (hdst : p ≤ dst) (k : Nat) (hk : k < n) :
    Memory.read obUnlisted m' (dst + k) = Memory.read obUnlisted m (dst - p + k % p) := by
  induction k using Nat.strong_induction_on with
  | _ k ih =>
    rw [h.value k hk]
    by_cases hfirst : k < p
    · rw [h.frame _ (by omega), Nat.mod_eq_of_lt hfirst, Nat.sub_add_comm hdst]
    · rw [Nat.mod_eq_sub_mod (by omega), ← ih (k - p) (by omega) (by omega),
        Nat.add_sub_assoc (by omega)]

/-- Where the bytes below the destination are written, a copy from them leaves written bytes. -/
theorem CopiedBack.read_ne_none {p dst n : Nat} {m m' : List Host.Cell}
    (h : CopiedBack p dst n m m') (hp : 1 ≤ p) (hdst : p ≤ dst)
    (hm : ∀ a, a < dst → Memory.read obUnlisted m a ≠ none) (a : Nat) (ha : a < dst + n) :
    Memory.read obUnlisted m' a ≠ none := by
  by_cases hlow : a < dst
  · rw [h.frame a (.inl hlow)]
    exact hm a hlow
  · have hmod := Nat.mod_lt (a - dst) hp
    rw [show a = dst + (a - dst) by omega, h.periodic hp hdst (a - dst) (by omega)]
    exact hm _ (by omega)

/-- The copy loop of BREF copies back. -/
theorem copyBytes_copiedBack {n p dst : Nat} {s t : State} (h : copyBytes n (dst - p) dst s = .ok t)
    (hs : Memory.wf obUnlisted s.ob = true) (hp : 1 ≤ p) (hdst : p ≤ dst) :
    CopiedBack p dst n s.ob t.ob where
  value k hk := by
    rw [copyBytes_value h hs (by omega) hk, Nat.sub_add_comm hdst]
  frame _ ha := copyBytes_frame h hs ha

/-- A BREF with its second byte in the region and 1 ≤ offset ≤ OUT_CUR copies back, clipped at DLEN, and moves the
cursors; nothing else changes (44_decompressor_tokens.md R100 to R104). -/
theorem execBref_copies {s : State} {i : InCursor} {o d : OutCursor} {offset : RefOffset}
    (length : RefLength) (hat : s.AtToken i o d) (hfilled : s.FilledBelow o)
    (hin : i.toNat + 1 < Config.codeLen) (hmin : 1 ≤ offset.toNat) (hmax : offset.toNat ≤ o.toNat) :
    ∃ ob, execBref offset length s =
        .next (({ s with ob := ob }.setOutCur
          (o.toNat + min length.toNat (d.toNat - o.toNat))).setInCur (i.toNat + 2)) ∧
      Memory.wf obUnlisted ob = true ∧
      CopiedBack offset.toNat o.toNat (min length.toNat (d.toNat - o.toNat)) s.ob ob := by
  obtain ⟨hwf, hread⟩ := hfilled
  have hlt := hat.outBelow
  obtain ⟨u, hu⟩ := copyBytes_completes (n := min length.toNat (d.toNat - o.toNat))
    (src := o.toNat - offset.toNat) (dst := o.toNat) hat.dlen hwf (by omega) (by omega)
    fun a _ ha => hread a ha
  refine ⟨u.ob, ?_, copyBytes_wf hu hwf, copyBytes_copiedBack hu hwf hmin hmax⟩
  have hinside : ¬(i.toNat + 1 ≥ Config.codeLen) := by omega
  have hgood : ¬(offset.toNat = 0 ∨ offset.toNat > o.toNat) := by omega
  rw [← copyBytes_only_ob hu]
  simp [execBref, hat.tokenContext_eq, TokenContext.straddles, hinside,
    TokenContext.badOffset, hgood, TokenContext.count, TokenContext.source, hu]

/-! ### A run of back-references -/

/-- The decompressor runs with these cursors, its output written up to OUT_CUR. Unlike `AtToken` it may be full or
spent, as it is after the last token of a run. -/
structure State.Running (s : State) (i : InCursor) (o d : OutCursor) : Prop where
  phase : s.phase = .decode
  inCur : s.inCur = some i
  outCur : s.outCur = some o
  dlen : s.dlen = some d
  filled : s.FilledBelow o

theorem runTokens_cons_of_next {i : Instr} {is : List Instr} {s t : State} (h : exec i s = .next t) :
    runTokens (i :: is) s = runTokens is t := by
  rw [runTokens, h]

/-- A position up to DLEN fits into OUT_CUR. -/
theorem toNat_ofNat_outCursor {n : Nat} {d : OutCursor} (h : n ≤ d.toNat) :
    (BitVec.ofNat 16 n).toNat = n := by
  have := d.isLt
  rw [BitVec.toNat_ofNat, Nat.mod_eq_of_lt (by omega)]

/-- One BREF that fits leaves the decompressor running behind its copy. -/
theorem exec_bref_running {s : State} {i : InCursor} {o d : OutCursor} {offset : RefOffset}
    {length : RefLength} (h : s.Running i o d) (hmin : 1 ≤ offset.toNat)
    (hmax : offset.toNat ≤ o.toNat) (hlength : 1 ≤ length.toNat)
    (hout : o.toNat + length.toNat ≤ d.toNat) (hin : i.toNat + 1 < Config.codeLen) :
    ∃ t, exec (.bref offset length) s = .next t ∧
      t.Running (BitVec.ofNat 14 (i.toNat + 2)) (BitVec.ofNat 16 (o.toNat + length.toNat)) d ∧
      CopiedBack offset.toNat o.toNat length.toNat s.ob t.ob := by
  have hat : s.AtToken i o d := ⟨h.phase, h.inCur, h.outCur, h.dlen, by omega, by omega⟩
  obtain ⟨ob, hexec, hwf, hcopied⟩ := execBref_copies length hat h.filled hin hmin hmax
  rw [min_eq_left (by omega)] at hexec hcopied
  refine ⟨_, hexec, ⟨h.phase, rfl, rfl, h.dlen, hwf, ?_⟩, hcopied⟩
  rw [toNat_ofNat_outCursor hout]
  exact hcopied.read_ne_none hmin hmax h.filled.2

/-- BREFs of one offset that fit, run one after another, copy back the sum of their lengths. -/
theorem runTokens_brefs {s : State} {i : InCursor} {o d : OutCursor} {offset : RefOffset}
    {ls : List RefLength} (h : s.Running i o d) (hmin : 1 ≤ offset.toNat)
    (hmax : offset.toNat ≤ o.toNat) (hls : ∀ l ∈ ls, 1 ≤ l.toNat)
    (hout : o.toNat + (ls.map BitVec.toNat).sum ≤ d.toNat)
    (hin : i.toNat + 2 * ls.length ≤ Config.codeLen) :
    ∃ t, runTokens (ls.map (Instr.bref offset)) s = .next t ∧
      t.outCur = some (BitVec.ofNat 16 (o.toNat + (ls.map BitVec.toNat).sum)) ∧
      t.inCur = some (BitVec.ofNat 14 (i.toNat + 2 * ls.length)) ∧
      CopiedBack offset.toNat o.toNat (ls.map BitVec.toNat).sum s.ob t.ob := by
  induction ls generalizing s i o with
  | nil => exact ⟨s, rfl, by simp [h.outCur], by simp [h.inCur], CopiedBack.refl ..⟩
  | cons l ls ih =>
    obtain ⟨hl, hls⟩ := List.forall_mem_cons.1 hls
    have hcode : Config.codeLen = 0x3D00 := rfl
    simp only [List.map_cons, List.sum_cons, List.length_cons] at hout hin ⊢
    have ho := toNat_ofNat_outCursor (n := o.toNat + l.toNat) (d := d) (by omega)
    have hi : (BitVec.ofNat 14 (i.toNat + 2)).toNat = i.toNat + 2 := by
      rw [BitVec.toNat_ofNat, Nat.mod_eq_of_lt (by omega)]
    obtain ⟨u, hu, hrunning, hfirst⟩ := exec_bref_running h hmin hmax hl (by omega) (by omega)
    obtain ⟨t, ht, houtCur, hinCur, hrest⟩ := ih hrunning (by omega) hls (by omega) (by omega)
    rw [ho] at houtCur hrest
    rw [hi] at hinCur
    refine ⟨t, (runTokens_cons_of_next hu).trans ht, ?_, ?_, hfirst.trans hrest⟩
    · rw [houtCur, Nat.add_assoc]
    · rw [hinCur, Nat.add_assoc, Nat.mul_succ, Nat.add_comm 2]

/-- Settles O13: the expansion is BREFs of one offset, copies from as far back join to one, and one copy repeats with
its offset as the period. -/
theorem copyExpansionIsOnePeriodicCopy : Obligations.CopyExpansionIsOnePeriodicCopy := by
  intro s i o d offset length tokens hat hfilled htokens hmax hout hin
  obtain ⟨⟨hmin, -, hlength⟩, rfl⟩ := copyTokens_eq_some.1 htokens
  obtain ⟨ls, hls, hrange, rfl⟩ := expandCopy_areBrefsOf offset hlength le_rfl
  have hrunning : s.Running i o d := ⟨hat.phase, hat.inCur, hat.outCur, hat.dlen, hfilled⟩
  rw [hls, List.length_map] at hin ⊢
  obtain ⟨t, ht, houtCur, hinCur, hcopied⟩ := runTokens_brefs hrunning hmin hmax
    (fun l hl => Nat.le_of_succ_le (hrange l hl).1) hout hin
  exact ⟨t, ht, houtCur, hinCur, hcopied.periodic hmin hmax, hcopied.frame⟩

end Sys2Proof.Machine

/-! PROOFS of the statements about the pixel extractor: which pixels pack to a byte, what EXTRACT answers, and that its
one pass over the grid is the write loop of R79. -/

namespace Sys2Proof.Machine

/-! ### The write loop -/

/-- A loop over the columns of each row in turn is one loop over the row-major addresses. -/
theorem foldl_range_mul {β : Type} (f : β → Nat → β) (w h : Nat) (b : β) :
    (List.range (h * w)).foldl f b =
      (List.range h).foldl (fun b y => (List.range w).foldl (fun b x => f b (y * w + x)) b) b := by
  induction h with
  | zero => simp
  | succ h ih =>
    rw [Nat.succ_mul, List.range_add, List.foldl_append, List.foldl_map, ih, List.range_succ,
      List.foldl_append, List.foldl_cons, List.foldl_nil]

/-- One turn of R79's loop: the packed byte of the pixel of stream position `a` is written at `a`. -/
def writePixel (pix : List Pixel) (m : List Host.Cell) (a : Nat) : List Host.Cell :=
  match pix[a]? with
  | some px => Memory.write fbUnlisted m a (pack px)
  | none => m

theorem extractLoop_eq_foldl_writePixel (w h : Nat) (pix : List Pixel) :
    extractLoop w h pix = (List.range (h * w)).foldl (writePixel pix) [] := by
  rw [foldl_range_mul]
  rfl

/-- One more pixel is one more write, above the cells so far. -/
theorem packCells_concat (pix : List Pixel) (px : Pixel) :
    packCells 0 (pix ++ [px]) = Memory.write fbUnlisted (packCells 0 pix) pix.length (pack px) := by
  have hwf := packCells_wf pix 0
  refine Memory.ext _ _ _ (packCells_wf _ 0) (Memory.wf_write _ _ hwf _ _) fun a => ?_
  rw [Memory.read_write _ _ hwf, read_packCells, read_packCells, Nat.sub_zero]
  rcases Nat.lt_trichotomy a pix.length with ha | rfl | ha
  · rw [List.getElem?_append_left ha, if_neg ha.ne]
  · simp
  · rw [List.getElem?_eq_none (by simpa using ha), List.getElem?_eq_none ha.le, if_neg ha.ne']

/-- The first `n` turns of the loop leave the packed cells of the first `n` pixels. -/
theorem foldl_writePixel_range {pix : List Pixel} {n : Nat} (hn : n ≤ pix.length) :
    (List.range n).foldl (writePixel pix) [] = packCells 0 (pix.take n) := by
  induction n with
  | zero => rfl
  | succ n ih =>
    have hlen : (pix.take n).length = n := List.length_take_of_le (by omega)
    rw [List.range_succ, List.foldl_append, ih (by omega), List.take_succ_eq_append_getElem hn,
      packCells_concat, hlen, List.foldl_cons, List.foldl_nil, writePixel,
      List.getElem?_eq_getElem hn]

/-- Settles O17: the nested loop is one loop over the addresses, and each of its writes adds the cell of one more pixel. -/
theorem extractEqualsWriteLoop : Obligations.ExtractEqualsWriteLoop := by
  intro w h pix hlen
  rw [extractLoop_eq_foldl_writePixel, Nat.mul_comm h w, ← hlen, foldl_writePixel_range le_rfl,
    List.take_length]

/-! ### The EXTRACT step -/

/-- The row-major address of a pixel of a W by H grid lies below W × H (R39). -/
theorem rowMajor_lt {w h x y : Nat} (hx : x < w) (hy : y < h) : y * w + x < w * h :=
  calc y * w + x < y * w + w := by omega
    _ = w * (y + 1) := by rw [Nat.mul_succ, Nat.mul_comm]
    _ ≤ w * h := Nat.mul_le_mul_left w hy

/-- FB reads the packed byte of each pixel of the stream at its position. -/
theorem readFb_packCells {s : State} {pix : List Pixel} {a : Nat} (hl : s.fbLen = some pix.length)
    (hf : s.fb = packCells 0 pix) (ha : a < pix.length) : readFb s a = .ok (pack pix[a]) :=
  readFb_eq_ok.2 ⟨_, hl, ha, by simp [hf, read_packCells, ha]⟩

/-- Settles O16: the step answers the packed cells of the grid, which read back by address and end at W × H. -/
theorem extractPacksGridRowMajor : Obligations.ExtractPacksGridRowMajor := by
  intro s w h hs hp hw hh hlen
  refine ⟨packCells 0 s.pix, ?_, fun x y hx hy => ?_, fun a ha c hc => ?_⟩
  · rw [step_of_schedule_nil hs, sequencerStep_extract hp, answer_eq_next, stepExtract_eq_ok]
    exact ⟨w, h, hw, hh, hlen, rfl⟩
  · have hlt : y * w + x < s.pix.length := by
      rw [hlen]
      exact rowMajor_lt hx hy
    rw [← hlen]
    exact ⟨_, List.getElem?_eq_getElem hlt, readFb_packCells rfl rfl hlt⟩
  · have := (packCells_range _ _ c hc).2
    omega

/-! ### The pre-images of PACK -/

/-- A channel is a concatenation exactly when the parts are its two fields. -/
theorem channel_eq_append_iff {x : Byte} {hi : BitVec 6} {lo : BitVec 2} :
    x = hi ++ lo ↔ hi = x.extractLsb' 2 6 ∧ x.extractLsb' 0 2 = lo := by
  constructor
  · rintro rfl
    exact ⟨BitVec.extractLsb'_append_eq_left.symm, BitVec.extractLsb'_append_eq_right⟩
  · rintro ⟨rfl, rfl⟩
    exact (BitVec.extractLsb'_append_extractLsb' (w := 6) (len := 2)).symm

theorem bitVec_append_inj {m n : Nat} {hi hi' : BitVec m} {lo lo' : BitVec n} :
    hi ++ lo = hi' ++ lo' ↔ hi = hi' ∧ lo = lo' := by
  constructor
  · intro h
    constructor
    · simpa only [BitVec.extractLsb'_append_eq_left] using congrArg (BitVec.extractLsb' n m) h
    · simpa only [BitVec.extractLsb'_append_eq_right] using congrArg (BitVec.extractLsb' 0 n) h
  · rintro ⟨rfl, rfl⟩
    rfl

/-- A byte is the concatenation of its four two-bit fragments. -/
theorem append_fragments (y : Byte) :
    y.extractLsb' 6 2 ++ y.extractLsb' 4 2 ++ y.extractLsb' 2 2 ++ y.extractLsb' 0 2 = y := by
  rw [BitVec.extractLsb'_append_extractLsb'_eq_extractLsb' (start₂ := 6) (start₁ := 4) rfl,
    BitVec.extractLsb'_append_extractLsb'_eq_extractLsb' (start₂ := 4) (start₁ := 2) rfl,
    BitVec.extractLsb'_append_extractLsb'_eq_extractLsb' (start₂ := 2) (start₁ := 0) rfl]
  exact BitVec.extractLsb'_eq_self

/-- A pixel packs to `y` exactly when its channels carry the fragments of `y` (R78). -/
theorem pack_eq_iff {p : Pixel} {y : Byte} : pack p = y ↔
    p.a.extractLsb' 0 2 = y.extractLsb' 6 2 ∧ p.r.extractLsb' 0 2 = y.extractLsb' 4 2 ∧
    p.g.extractLsb' 0 2 = y.extractLsb' 2 2 ∧ p.b.extractLsb' 0 2 = y.extractLsb' 0 2 :=
  calc pack p = y
    _ ↔ p.a.extractLsb' 0 2 ++ p.r.extractLsb' 0 2 ++ p.g.extractLsb' 0 2 ++ p.b.extractLsb' 0 2 =
        y.extractLsb' 6 2 ++ y.extractLsb' 4 2 ++ y.extractLsb' 2 2 ++ y.extractLsb' 0 2 := by
      rw [append_fragments, ← packConcatenatesLowBits]
    _ ↔ _ := by simp only [bitVec_append_inj, and_assoc]

/-- The bits of the channels that PACK ignores. -/
def Pixel.highBits (p : Pixel) : BitVec 6 × BitVec 6 × BitVec 6 × BitVec 6 :=
  (p.a.extractLsb' 2 6, p.r.extractLsb' 2 6, p.g.extractLsb' 2 6, p.b.extractLsb' 2 6)

/-- A pixel carries the fragments of `y` under the high bits `h` exactly when `h` are its own and it packs to `y`. -/
theorem eq_high_append_fragments_iff {p : Pixel} {y : Byte}
    {h : BitVec 6 × BitVec 6 × BitVec 6 × BitVec 6} :
    p = ⟨h.1 ++ y.extractLsb' 6 2, h.2.1 ++ y.extractLsb' 4 2,
      h.2.2.1 ++ y.extractLsb' 2 2, h.2.2.2 ++ y.extractLsb' 0 2⟩ ↔
      h = p.highBits ∧ pack p = y := by
  obtain ⟨a, r, g, b⟩ := p
  obtain ⟨ha, hr, hg, hb⟩ := h
  simp only [pack_eq_iff, Pixel.highBits, Pixel.mk.injEq, Prod.mk.injEq, channel_eq_append_iff]
  tauto

/-- Settles O15: the high bits can only be the pixel's own, and over those it packs to `y`. -/
theorem packPreimages : Obligations.PackPreimages := by
  intro y p
  simp only [eq_high_append_fragments_iff]
  constructor
  · intro hpack
    exact ⟨p.highBits, ⟨rfl, hpack⟩, fun _ h => h.1⟩
  · rintro ⟨_, ⟨-, hpack⟩, -⟩
    exact hpack

end Sys2Proof.Machine

/-! PROOFS of the statements about the region splitter: which region and offset DECODE_ADDR answers, and what the SPLIT
step answers on either side of its length check. -/

namespace Sys2Proof.Machine

/-! ### The address decoder -/

/-- An answer lies in its region: the bounds that the decoder tests are the region's own (R83). -/
theorem region_of_decodeAddr_eq_some {addr : BitVec 16} {x : Region} {n : Nat}
    (h : decodeAddr addr = some (x, n)) : n < x.len ∧ addr.toNat = x.base + n := by
  simp only [decodeAddr] at h
  split_ifs at h <;> cases h <;> simp only [Region.base, Region.len] <;> omega

/-- The decoder finds each region: an address in it fails the tests of the regions below and passes its own. -/
theorem decodeAddr_of_region {addr : BitVec 16} {x : Region} {n : Nat} (hn : n < x.len)
    (ha : addr.toNat = x.base + n) : decodeAddr addr = some (x, n) := by
  cases x
  case version =>
    obtain rfl : n = 0 := Nat.lt_one_iff.1 hn
    simp [decodeAddr, ha, Region.base]
  all_goals
    simp only [Region.base, Region.len] at hn ha
    simp (disch := omega) only [decodeAddr, ha, if_pos, if_neg, Nat.add_sub_cancel_left]

theorem decodeAddr_eq_some_iff {addr : BitVec 16} {x : Region} {n : Nat} :
    decodeAddr addr = some (x, n) ↔ n < x.len ∧ addr.toNat = x.base + n :=
  ⟨region_of_decodeAddr_eq_some, fun ⟨hn, ha⟩ => decodeAddr_of_region hn ha⟩

/-- NONE is the answer above the last region only. -/
theorem decodeAddr_eq_none_iff {addr : BitVec 16} :
    decodeAddr addr = none ↔ Config.minStream ≤ addr.toNat := by
  simp only [decodeAddr, Config.minStream]
  split_ifs <;> simp only [true_iff, false_iff] <;> omega

/-- Settles O18: the bounds are those of R81's table, and the decoder answers some region's address or NONE. -/
theorem regionsTileTheStream : Obligations.RegionsTileTheStream :=
  ⟨rfl, fun _ => ⟨fun _ _ => decodeAddr_eq_some_iff, decodeAddr_eq_none_iff⟩⟩

/-! ### The SPLIT step -/

/-- In SPLIT, where no turn is scheduled, the step answers what SPLIT does. -/
theorem step_eq_next_iff_stepSplit {s t : State} (hs : s.schedule = []) (hp : s.phase = .split) :
    step s = .next t ↔ stepSplit s = .ok t := by
  rw [step_of_schedule_nil hs, sequencerStep_split hp, answer_eq_next]

/-- Settles O19: a short stream raises its length, and a long one answers the read of VERSION. -/
theorem splitChecksStreamLength : Obligations.SplitChecksStreamLength := by
  intro s n hs hp hn
  simp only [step_eq_next_iff_stepSplit hs hp, stepSplit_eq_ok]
  split
  · next hshort =>
    exact ⟨n, hn, .inl ⟨hshort, by rw [State.raise, hp]⟩⟩
  · next hlong =>
    have hmin : Config.minStream ≤ n := Nat.not_lt.1 hlong
    obtain ⟨v, hv⟩ := readFb_long hn hmin (a := Config.versionAddr) (by decide)
    exact ⟨v, hv, n, hn, .inr ⟨hmin, v, hv, rfl⟩⟩

end Sys2Proof.Machine

/-! PROOFS of the statements about the decompressor's control: what GATE answers, the moves of the DECODE loop, where a
token completes, and that every operation ends within the steps of R94. -/

namespace Sys2Proof.Machine

/-! ### GATE -/

/-- In GATE, where no turn is scheduled, the step answers what GATE does. -/
theorem step_eq_next_iff_stepGate {s t : State} (hs : s.schedule = []) (hp : s.phase = .gate) :
    step s = .next t ↔ stepGate s = .ok t := by
  rw [step_of_schedule_nil hs, sequencerStep_gate hp, answer_eq_next]

theorem mem_versionsOk_iff {v : Byte} : v ∈ Config.versionsOk ↔ v = 0x01 ∨ v = 0x05 := by
  simp [Config.versionsOk]

/-- A pair of CR bytes is read big-endian, and no bit is lost (20_memory.md R44). -/
theorem readCrPair_of_readCr {s : State} {a : Nat} {hi lo : Byte} (hhi : readCr s a = .ok hi)
    (hlo : readCr s (a + 1) = .ok lo) :
    ∃ d, readCrPair s a = .ok d ∧ d.toNat = hi.toNat * 256 + lo.toNat := by
  have := hi.isLt
  have := lo.isLt
  refine ⟨BitVec.ofNat 16 (hi.toNat * 256 + lo.toNat), by simp [readCrPair, hhi, hlo, bigEndian], ?_⟩
  rw [BitVec.toNat_ofNat, Nat.mod_eq_of_lt (by omega)]

/-- A stream of at least 0x8001 bytes answers the reads of the header's length. -/
theorem readCrPair_dlenAddr_long {s : State} {n : Nat} (hn : s.fbLen = some n)
    (hl : Config.minStream ≤ n) :
    ∃ hi lo d, readCr s 4 = .ok hi ∧ readCr s 5 = .ok lo ∧
      readCrPair s Config.dlenAddr = .ok d ∧ d.toNat = hi.toNat * 256 + lo.toNat := by
  obtain ⟨hi, hhi⟩ := readCr_long hn hl (i := 4) (by decide)
  obtain ⟨lo, hlo⟩ := readCr_long hn hl (i := 5) (by decide)
  obtain ⟨d, hd, hvalue⟩ := readCrPair_of_readCr hhi hlo
  exact ⟨hi, lo, d, hhi, hlo, hd, hvalue⟩

/-- Settles O21: the version decides between the raise and the set-up, and a long stream answers the header's reads. -/
theorem gateChecksVersionThenReadsHeader : Obligations.GateChecksVersionThenReadsHeader := by
  intro s v n hs hp hv hn hl
  simp only [step_eq_next_iff_stepGate hs hp, stepGate_eq_ok, mem_versionsOk_iff]
  split
  · next hbad => exact ⟨v, hv, .inl ⟨not_or.2 hbad, by rw [State.raise, hp]⟩⟩
  · next hok =>
    obtain ⟨hi, lo, d, hhi, hlo, hd, hvalue⟩ := readCrPair_dlenAddr_long hn hl
    exact ⟨hi, lo, d, hhi, hlo, hvalue, v, hv, .inr ⟨by_contra fun h => hok (not_or.1 h), d, hd, rfl⟩⟩

/-! ### OB while the decompressor runs -/

/-- A memory filled from position 0 on holds a byte exactly below its end. -/
theorem read_ne_none_iff_of_range {m : List Host.Cell} {n : Nat} (h : m.map Prod.fst = List.range n)
    (a : Nat) : Memory.read obUnlisted m a ≠ none ↔ a < n := by
  have hlength : m.length = n := by simpa using congrArg List.length h
  rw [read_ob_of_range h, Ne, List.getElem?_eq_none_iff, List.length_map, hlength, not_le]

/-- While tokens run, OB is filled exactly below OUT_CUR (10_state.md R30). -/
theorem State.Inv.read_ob_ne_none_iff {s : State} {o : OutCursor} (h : s.Inv)
    (hp : s.phase = .decode) (ho : s.outCur = some o) (a : Nat) :
    Memory.read obUnlisted s.ob a ≠ none ↔ a < o.toNat := by
  obtain ⟨-, -, hprog⟩ := h.atDecode hp
  exact read_ne_none_iff_of_range (hprog.positions ho) a

theorem State.Inv.filledBelow {s : State} {o : OutCursor} (h : s.Inv) (hp : s.phase = .decode)
    (ho : s.outCur = some o) : s.FilledBelow o :=
  ⟨h.obForm, fun a ha => (h.read_ob_ne_none_iff hp ho a).2 ha⟩

/-! ### The moves of the DECODE loop -/

/-- In DECODE, where no turn is scheduled, the step is the DECODE step. -/
theorem step_eq_stepDecode {s : State} (hs : s.schedule = []) (hp : s.phase = .decode) :
    step s = stepDecode s := by
  rw [step_of_schedule_nil hs, sequencerStep_decode hp]

theorem stepDecode_of_full {s : State} {i : InCursor} {o d : OutCursor} (hi : s.inCur = some i)
    (ho : s.outCur = some o) (hd : s.dlen = some d) (hfull : d.toNat ≤ o.toNat) :
    stepDecode s = .next s.complete := by
  have hmove : loopMove s = .ok .full := by simp [loopMove, hi, ho, hd, hfull]
  rw [stepDecode, hmove]

theorem stepDecode_of_spent {s : State} {i : InCursor} {o d : OutCursor} (hi : s.inCur = some i)
    (ho : s.outCur = some o) (hd : s.dlen = some d) (hlt : o.toNat < d.toNat)
    (hspent : Config.codeLen ≤ i.toNat) : stepDecode s = .next s.exhaust := by
  have hmove : loopMove s = .ok .spent := by simp [loopMove, hi, ho, hd, hlt.not_ge, hspent]
  rw [stepDecode, hmove]

theorem stepDecode_of_decode {s : State} {i : InCursor} {o d : OutCursor} {bytes rest : List Byte}
    {instr : Instr} (hat : s.AtToken i o d) (hf : fetchBytes s i.toNat = .ok bytes)
    (hdec : decode bytes = .ok (instr, rest)) : stepDecode s = exec instr s := by
  have hmove : loopMove s = .ok (.token instr) := by
    simp [loopMove, hat.inCur, hat.outCur, hat.dlen, hat.outBelow.not_ge, hat.inBelow.not_ge, hf,
      hdec]
  rw [stepDecode, hmove]

theorem stepDecode_of_decode_error {s : State} {i : InCursor} {o d : OutCursor} {bytes : List Byte}
    {e : DecodeError} (hat : s.AtToken i o d) (hf : fetchBytes s i.toNat = .ok bytes)
    (hdec : decode bytes = .error e) : stepDecode s = .next s.straddle := by
  have hmove : loopMove s = .ok .straddle := by
    simp [loopMove, hat.inCur, hat.outCur, hat.dlen, hat.outBelow.not_ge, hat.inBelow.not_ge, hf,
      hdec]
  rw [stepDecode, hmove]

/-- Settles O22: the output test comes first, and the invariant bounds OUT_CUR by DLEN and fills OB below it. -/
theorem fullOutputEndsInDone : Obligations.FullOutputEndsInDone := by
  intro s i o d hs hp hi ho hd hfull
  constructor
  · rw [step_eq_stepDecode hs hp, stepDecode_of_full hi ho hd hfull, State.complete, hd]
  · intro hinv
    obtain ⟨-, -, hprog⟩ := hinv.atDecode hp
    obtain ⟨-, -, -, -, hle, -, -⟩ := hprog.facts hi ho hd
    obtain rfl : o = d := BitVec.eq_of_toNat_eq (le_antisymm hle hfull)
    exact ⟨rfl, fun a ha => (hinv.read_ob_ne_none_iff hp ho a).2 ha⟩

/-- Settles O23: the input test follows the output test, and `exhaust()` ends by STRICT. -/
theorem spentInputEndsByStrict : Obligations.SpentInputEndsByStrict := by
  intro s i o d hs hp hi ho hd hlt hspent
  constructor
  · rw [step_eq_stepDecode hs hp, stepDecode_of_spent hi ho hd hlt hspent]
    simp only [State.exhaust, State.raise, State.truncate, hp, hi, ho]
  · intro hinv a
    exact hinv.read_ob_ne_none_iff hp ho a

/-! ### The fetch -/

theorem decode_of_no_second_byte {c : Byte} (h : tokenLength (tokenKind c) = 2) :
    decode [c] = .error .noSecondByte := by
  cases hk : tokenKind c with
  | esc => simp only [decode, hk]
  | sym => simp [hk, tokenLength] at h
  | bref => simp only [decode, hk]

theorem fetchBytes_of_no_second_byte {s : State} {n : Nat} {c : Byte} (hc : readCr s n = .ok c)
    (hlast : Config.codeLen ≤ n + 1) : fetchBytes s n = .ok [c] :=
  fetchBytes_eq_ok.2 ⟨c, hc, by rw [if_neg fun h => hlast.not_gt h.2]⟩

/-- CR is read inside the region only (20_memory.md R41). -/
theorem lt_codeLen_of_readCr {s : State} {n : Nat} {v : Byte} (h : readCr s n = .ok v) :
    n < Config.codeLen := by
  by_contra hn
  simp [readCr, hn] at h

theorem fetchBytes_pair {s : State} {n : Nat} {c b : Byte} (hc : readCr s n = .ok c)
    (hb : readCr s (n + 1) = .ok b) (htwo : tokenLength (tokenKind c) = 2) :
    fetchBytes s n = .ok [c, b] :=
  fetchBytes_eq_ok.2 ⟨c, hc, by rw [if_pos ⟨htwo, lt_codeLen_of_readCr hb⟩]; exact ⟨b, hb, rfl⟩⟩

theorem fetchBytes_single {s : State} {n : Nat} {c : Byte} (hc : readCr s n = .ok c)
    (hk : tokenKind c = .sym) : fetchBytes s n = .ok [c] :=
  fetchBytes_eq_ok.2 ⟨c, hc, by simp [hk, tokenLength]⟩

/-- The fetch takes the bytes of a token that stands in the region. -/
theorem fetchBytes_of_decode {s : State} {n : Nat} {bytes : List Byte} {instr : Instr}
    (hdec : decode bytes = .ok (instr, []))
    (hread : ∀ k v, bytes[k]? = some v → readCr s (n + k) = .ok v) :
    fetchBytes s n = .ok bytes := by
  rcases decode_cases hdec with ⟨c, v, rfl, hk, -⟩ | ⟨c, rfl, hk, -⟩ | ⟨c, b, rfl, hk, -⟩
  · exact fetchBytes_pair (hread 0 c rfl) (hread 1 v rfl) (by rw [hk]; rfl)
  · exact fetchBytes_single (hread 0 c rfl) hk
  · exact fetchBytes_pair (hread 0 c rfl) (hread 1 b rfl) (by rw [hk]; rfl)

/-- A stream of at least 0x8001 bytes answers every fetch in the code region. -/
theorem fetchBytes_long {s : State} {n a : Nat} (hn : s.fbLen = some n) (hl : Config.minStream ≤ n)
    (ha : a < Config.codeLen) : ∃ bytes, fetchBytes s a = .ok bytes := by
  obtain ⟨c, hc⟩ := readCr_long hn hl ha
  by_cases htwo : tokenLength (tokenKind c) = 2 ∧ a + 1 < Config.codeLen
  · obtain ⟨b, hb⟩ := readCr_long hn hl htwo.2
    exact ⟨_, fetchBytes_pair hc hb htwo.1⟩
  · exact ⟨[c], fetchBytes_eq_ok.2 ⟨c, hc, by rw [if_neg htwo]⟩⟩

/-- Settles O24: the fetch finds a control byte alone, which is no token, and IN_CUR at 0x3D00 is spent input. -/
theorem straddlingTokenSpendsInput : Obligations.StraddlingTokenSpendsInput := by
  intro s o d c hs hat hc hkind
  have htwo : tokenLength (tokenKind c) = 2 := by
    rw [tokenLength_tokenKind, if_neg (by omega)]
  constructor
  · rw [step_eq_stepDecode hs hat.phase]
    exact stepDecode_of_decode_error hat (fetchBytes_of_no_second_byte hc (by decide))
      (decode_of_no_second_byte htwo)
  · show step s.straddle = .next s.straddle.exhaust
    rw [step_eq_stepDecode (s := s.straddle) hs hat.phase]
    exact stepDecode_of_spent (i := 0x3D00) rfl hat.outCur hat.dlen hat.outBelow (by decide)

/-- Settles O25: the fetch takes the token's bytes; a turn taken off changes neither them nor the precondition. -/
theorem stepRunsDecodedToken : Obligations.StepRunsDecodedToken := by
  intro s i o d bytes instr hat hdec hread
  have hf : fetchBytes s i.toNat = .ok bytes := fetchBytes_of_decode hdec hread
  refine ⟨fun hs => ?_, fun ts hs => ?_⟩
  · rw [step_eq_stepDecode hs hat.phase, stepDecode_of_decode hat hf hdec]
  · have hat' : (s.setSchedule ts).AtToken i o d := { hat with }
    rw [step_of_schedule_sequencer hs, sequencerStep_decode hat'.phase]
    exact stepDecode_of_decode hat' hf hdec

/-! ### Where a token completes -/

theorem exec_esc_of_straddle {s : State} {i : InCursor} {o d : OutCursor} (hat : s.AtToken i o d)
    (hlast : Config.codeLen ≤ i.toNat + 1) (v : Byte) : exec (.esc v) s = .next s.straddle := by
  simp [exec, execEsc, hat.tokenContext_eq, TokenContext.straddles, hlast]

theorem exec_bref_of_straddle {s : State} {i : InCursor} {o d : OutCursor} (hat : s.AtToken i o d)
    (hlast : Config.codeLen ≤ i.toNat + 1) (offset : RefOffset) (length : RefLength) :
    exec (.bref offset length) s = .next s.straddle := by
  simp [exec, execBref, hat.tokenContext_eq, TokenContext.straddles, hlast]

/-- Settles O32: both meanings test for the straddle before anything else. -/
theorem straddlingTokensWriteNothing : Obligations.StraddlingTokensWriteNothing := by
  intro s o d v offset length hat
  exact ⟨exec_esc_of_straddle hat (by decide) v, exec_bref_of_straddle hat (by decide) offset length⟩

/-- In the precondition one byte is emitted at OUT_CUR, which lies below DLEN. -/
theorem emitByte_of_atToken {s : State} {i : InCursor} {o d : OutCursor} (hat : s.AtToken i o d)
    (v : Byte) (b : Nat) : emitByte s ⟨i.toNat, o.toNat, d.toNat⟩ v b =
      .ok (((s.setOb o.toNat v).setOutCur (o.toNat + 1)).setInCur (i.toNat + b)) :=
  emitByte_eq_ok.2 ⟨d, hat.dlen, hat.outBelow, rfl⟩

theorem exec_esc_of_inside {s : State} {i : InCursor} {o d : OutCursor} (hat : s.AtToken i o d)
    (hin : i.toNat + 1 < Config.codeLen) (v : Byte) : exec (.esc v) s =
      .next (((s.setOb o.toNat v).setOutCur (o.toNat + 1)).setInCur (i.toNat + 2)) := by
  simp [exec, execEsc, hat.tokenContext_eq, TokenContext.straddles, hin.not_ge,
    emitByte_of_atToken hat]

theorem exec_sym_of_atToken {s : State} {i : InCursor} {o d : OutCursor} (hat : s.AtToken i o d)
    (idx : SymIndex) : exec (.sym idx) s =
      .next (((s.setOb o.toNat (readSym s idx)).setOutCur (o.toNat + 1)).setInCur (i.toNat + 1)) := by
  simp [exec, execSym, hat.tokenContext_eq, emitByte_of_atToken hat]

/-- R100's guard, as an error entry. -/
theorem exec_bref_of_bad_offset {s : State} {i : InCursor} {o d : OutCursor} {offset : RefOffset}
    (hat : s.AtToken i o d) (hin : i.toNat + 1 < Config.codeLen)
    (hbad : offset.toNat = 0 ∨ o.toNat < offset.toNat) (length : RefLength) :
    exec (.bref offset length) s =
      .next ((s.setInCur (i.toNat + 1)).raise s .badReference (.reference offset length)) := by
  simp [exec, execBref, hat.tokenContext_eq, TokenContext.straddles, hin.not_ge,
    TokenContext.badOffset, hbad]

/-- In the precondition, with OB filled below OUT_CUR, every token answers a next state. -/
theorem exec_answers {s : State} {i : InCursor} {o d : OutCursor} (hat : s.AtToken i o d)
    (hfilled : s.FilledBelow o) (instr : Instr) : IsNext (exec instr s) := by
  rcases Nat.lt_or_ge (i.toNat + 1) Config.codeLen with hin | hlast
  · cases instr with
    | esc v => exact ⟨_, exec_esc_of_inside hat hin v⟩
    | sym idx => exact ⟨_, exec_sym_of_atToken hat idx⟩
    | bref offset length =>
      by_cases hbad : offset.toNat = 0 ∨ o.toNat < offset.toNat
      · exact ⟨_, exec_bref_of_bad_offset hat hin hbad length⟩
      · obtain ⟨hmin, hmax⟩ := not_or.1 hbad
        obtain ⟨ob, hcopy, -, -⟩ := execBref_copies length hat hfilled hin
          (Nat.one_le_iff_ne_zero.2 hmin) (not_lt.1 hmax)
        exact ⟨_, hcopy⟩
  · cases instr with
    | esc v => exact ⟨_, exec_esc_of_straddle hat hlast v⟩
    | sym idx => exact ⟨_, exec_sym_of_atToken hat idx⟩
    | bref offset length => exact ⟨_, exec_bref_of_straddle hat hlast offset length⟩

theorem tokenContext_of_exec {s t : State} {instr : Instr} (h : exec instr s = .next t) :
    ∃ c, tokenContext s = .ok c := by
  cases instr with
  | esc v =>
    obtain ⟨c, hc, -⟩ := execEsc_cases h
    exact ⟨c, hc⟩
  | sym idx =>
    obtain ⟨c, hc, -⟩ := execSym_cases h
    exact ⟨c, hc⟩
  | bref offset length =>
    obtain ⟨c, hc, -⟩ := execBref_cases h
    exact ⟨c, hc⟩

/-- A token answers a next state in the precondition of the token rules only. -/
theorem atToken_of_exec {s t : State} {instr : Instr} (h : exec instr s = .next t) :
    ∃ i o d, s.AtToken i o d := by
  obtain ⟨c, hc⟩ := tokenContext_of_exec h
  obtain ⟨i, o, d, hi, ho, hd, hp, hout, hin, -⟩ := tokenContext_eq_ok.1 hc
  exact ⟨i, o, d, hp, hi, ho, hd, hout, hin⟩

/-- Settles O36: every token reads its context first, and in the precondition each branch of each token answers. -/
theorem tokensCompleteExactlyInPrecondition : Obligations.TokensCompleteExactlyInPrecondition := by
  intro s instr hinv
  constructor
  · rintro ⟨t, ht⟩
    exact atToken_of_exec ht
  · rintro ⟨i, o, d, hat⟩
    exact exec_answers hat (hinv.filledBelow hat.phase hat.outCur) instr

/-! ### A busy step answers -/

theorem stepDecode_answers {s : State} (h : s.Inv) (hp : s.phase = .decode) :
    IsNext (stepDecode s) := by
  obtain ⟨-, ⟨n, -, hn, hl, -⟩, d, o, i, hd, ho, hi, -⟩ := h.atDecode hp
  rcases Nat.lt_or_ge o.toNat d.toNat with hout | hfull
  · rcases Nat.lt_or_ge i.toNat Config.codeLen with hin | hspent
    · have hat : s.AtToken i o d := ⟨hp, hi, ho, hd, hout, hin⟩
      obtain ⟨bytes, hf⟩ := fetchBytes_long hn hl hin
      cases hdec : decode bytes with
      | ok r =>
        rw [stepDecode_of_decode hat hf hdec]
        exact exec_answers hat (h.filledBelow hp ho) r.1
      | error e => exact ⟨_, stepDecode_of_decode_error hat hf hdec⟩
    · exact ⟨_, stepDecode_of_spent hi ho hd hout hspent⟩
  · exact ⟨_, stepDecode_of_full hi ho hd hfull⟩

theorem stepExtract_answers {s : State} (h : s.Inv) (hp : s.phase = .extract) :
    ∃ t, stepExtract s = .ok t := by
  obtain ⟨⟨w, hh, hw, hhh, hl⟩, -, -⟩ := h.atExtract hp
  exact ⟨_, stepExtract_eq_ok.2 ⟨w, hh, hw, hhh, hl, rfl⟩⟩

theorem stepSplit_answers {s : State} (h : s.Inv) (hp : s.phase = .split) :
    ∃ t, stepSplit s = .ok t := by
  obtain ⟨⟨w, hh, -, -, hn⟩, -, -⟩ := h.atSplit hp
  rcases Nat.lt_or_ge (w * hh) Config.minStream with hshort | hlong
  · exact ⟨_, stepSplit_eq_ok.2 ⟨_, hn, .inl ⟨hshort, rfl⟩⟩⟩
  · obtain ⟨v, hv⟩ := readFb_long hn hlong (a := Config.versionAddr) (by decide)
    exact ⟨_, stepSplit_eq_ok.2 ⟨_, hn, .inr ⟨hlong, v, hv, rfl⟩⟩⟩

theorem stepGate_answers {s : State} (h : s.Inv) (hp : s.phase = .gate) :
    ∃ t, stepGate s = .ok t := by
  obtain ⟨-, ⟨n, v, hn, hl, hv, -⟩, -⟩ := h.atGate hp
  by_cases hok : v ∈ Config.versionsOk
  · obtain ⟨-, -, d, -, -, hd, -⟩ := readCrPair_dlenAddr_long hn hl
    exact ⟨_, stepGate_eq_ok.2 ⟨v, hv, .inr ⟨hok, d, hd, rfl⟩⟩⟩
  · exact ⟨_, stepGate_eq_ok.2 ⟨v, hv, .inl ⟨hok, rfl⟩⟩⟩

/-- With the invariant no stage of the sequencer stops: each read finds its value (10_state.md R36, 20_memory.md R50). -/
theorem sequencerStep_answers {s : State} (h : s.Inv) (hb : s.busy = true) :
    IsNext (sequencerStep s) := by
  rw [State.busy] at hb
  cases hp : s.phase with
  | extract =>
    obtain ⟨t, ht⟩ := stepExtract_answers h hp
    exact ⟨t, by rw [sequencerStep_extract hp, ht, answer_ok]⟩
  | split =>
    obtain ⟨t, ht⟩ := stepSplit_answers h hp
    exact ⟨t, by rw [sequencerStep_split hp, ht, answer_ok]⟩
  | gate =>
    obtain ⟨t, ht⟩ := stepGate_answers h hp
    exact ⟨t, by rw [sequencerStep_gate hp, ht, answer_ok]⟩
  | decode =>
    rw [sequencerStep_decode hp]
    exact stepDecode_answers h hp
  | idle => simp [hp, Phase.busy] at hb
  | done => simp [hp, Phase.busy] at hb
  | truncated => simp [hp, Phase.busy] at hb
  | error => simp [hp, Phase.busy] at hb

/-! ### The steps left of an operation -/

/-- What a token that began at `i` leaves: ERROR, or the loop with IN_CUR further on, no further than the region's end
(43_decompressor_control.md R94). -/
def State.MovesOn (t : State) (i : InCursor) : Prop :=
  t.phase = .error ∨
    t.phase = .decode ∧ ∃ b, 1 ≤ b ∧ i.toNat + b ≤ Config.codeLen ∧
      t.inCur = some (BitVec.ofNat 14 (i.toNat + b))

theorem straddle_movesOn {s : State} {i : InCursor} {o d : OutCursor} (hat : s.AtToken i o d)
    (hlast : Config.codeLen ≤ i.toNat + 1) : s.straddle.MovesOn i := by
  have hi : i.toNat + 1 = Config.codeLen := le_antisymm hat.inBelow hlast
  exact .inr ⟨hat.phase, 1, le_rfl, hi.le, by rw [hi]; rfl⟩

theorem exec_movesOn {s t : State} {i : InCursor} {o d : OutCursor} {instr : Instr}
    (hat : s.AtToken i o d) (h : exec instr s = .next t) : t.MovesOn i := by
  have hcontext := hat.tokenContext_eq
  cases instr with
  | esc v =>
    obtain ⟨c, hc, hcases⟩ := execEsc_cases h
    cases hcontext.symm.trans hc
    rcases hcases with ⟨hst, rfl⟩ | ⟨hst, rfl⟩
    · exact straddle_movesOn hat (of_decide_eq_true hst)
    · have hin := not_le.1 (of_decide_eq_false hst)
      exact .inr ⟨hat.phase, 2, one_le_two, hin, rfl⟩
  | sym idx =>
    obtain ⟨c, hc, rfl⟩ := execSym_cases h
    cases hcontext.symm.trans hc
    exact .inr ⟨hat.phase, 1, le_rfl, hat.inBelow, rfl⟩
  | bref offset length =>
    obtain ⟨c, hc, hcases⟩ := execBref_cases h
    cases hcontext.symm.trans hc
    rcases hcases with ⟨hst, rfl⟩ | ⟨-, -, rfl⟩ | ⟨hst, -, u, hu, rfl⟩
    · exact straddle_movesOn hat (of_decide_eq_true hst)
    · exact .inl rfl
    · have hin := not_le.1 (of_decide_eq_false hst)
      have hp : u.phase = .decode := by
        rw [copyBytes_only_ob hu]
        exact hat.phase
      exact .inr ⟨hp, 2, one_le_two, hin, rfl⟩

theorem exhaust_phase_terminal (s : State) : s.exhaust.phase.terminal = true := by
  rcases exhaust_cases s with ⟨-, h⟩ | ⟨-, h⟩
  · rw [h]
    rfl
  · rw [h]
    rfl

/-- A DECODE step ends the operation, or is in the precondition of the token rules and moves IN_CUR on. -/
theorem stepDecode_ends_or_movesOn {s t : State} (hp : s.phase = .decode)
    (h : stepDecode s = .next t) :
    t.phase.terminal = true ∨ ∃ i o d, s.AtToken i o d ∧ t.MovesOn i := by
  obtain ⟨m, hm, hcases⟩ := stepDecode_cases h
  rcases hcases with ⟨-, rfl⟩ | ⟨-, rfl⟩ | ⟨rfl, rfl⟩ | ⟨instr, rfl, hexec⟩
  · exact .inl rfl
  · exact .inl (exhaust_phase_terminal s)
  · obtain ⟨o, d, i, ho, hd, hi, ⟨-, ⟨⟩⟩ | ⟨-, -, ⟨⟩⟩ | ⟨hout, hin, hlast, -⟩ |
      ⟨-, -, _, _, -, -, ⟨⟩⟩⟩ := loopMove_cases hm
    have hat : s.AtToken i o d := ⟨hp, hi, ho, hd, hout, hin⟩
    exact .inr ⟨i, o, d, hat, straddle_movesOn hat hlast⟩
  · obtain ⟨i, o, d, hat⟩ := atToken_of_exec hexec
    exact .inr ⟨i, o, d, hat, exec_movesOn hat hexec⟩

/-- How many steps an operation can still take before the one that ends it: in DECODE one for each byte of input left,
and one for each stage before DECODE (43_decompressor_control.md R94, 45_orchestration.md R110). -/
def State.stepsBeforeEnd (s : State) : Nat :=
  match s.phase with
  | .extract => Config.codeLen - Config.tokenStart + 3
  | .split => Config.codeLen - Config.tokenStart + 2
  | .gate => Config.codeLen - Config.tokenStart + 1
  | .decode => Config.codeLen - s.inCur.elim 0 BitVec.toNat
  | _ => 0

theorem stepsBeforeEnd_of_decode {s : State} {i : InCursor} (hp : s.phase = .decode)
    (hi : s.inCur = some i) : s.stepsBeforeEnd = Config.codeLen - i.toNat := by
  simp only [State.stepsBeforeEnd, hp, hi, Option.elim_some]

/-- The header's 8 bytes are no tokens, so at most 15,611 steps come before the last. -/
theorem State.Inv.stepsBeforeEnd_lt {s : State} (h : s.Inv) : s.stepsBeforeEnd < 15612 := by
  cases hp : s.phase with
  | decode =>
    obtain ⟨-, -, d, o, i, -, -, hi, -, -, hstart, -⟩ := h.atDecode hp
    have hcode : Config.codeLen = 0x3D00 := rfl
    have htokens : Config.tokenStart = 8 := rfl
    rw [stepsBeforeEnd_of_decode hp hi]
    omega
  | _ => simp [State.stepsBeforeEnd, hp, Config.codeLen, Config.tokenStart]

/-- The operation goes on from `s` to `t`, with fewer steps before its end. -/
def State.GoesOn (s t : State) : Prop :=
  t.busy = true ∧ t.stepsBeforeEnd < s.stepsBeforeEnd

theorem stepExtract_goesOn {s t : State} (hp : s.phase = .extract) (h : stepExtract s = .ok t) :
    s.GoesOn t := by
  obtain ⟨w, hh, -, -, -, rfl⟩ := stepExtract_eq_ok.1 h
  exact ⟨rfl, by simp [State.stepsBeforeEnd, hp]⟩

theorem stepSplit_ends_or_goesOn {s t : State} (hp : s.phase = .split) (h : stepSplit s = .ok t) :
    t.phase.terminal = true ∨ s.GoesOn t := by
  obtain ⟨n, -, ⟨-, rfl⟩ | ⟨-, v, -, rfl⟩⟩ := stepSplit_eq_ok.1 h
  · exact .inl rfl
  · exact .inr ⟨rfl, by simp [State.stepsBeforeEnd, hp]⟩

theorem stepGate_ends_or_goesOn {s t : State} (hp : s.phase = .gate) (h : stepGate s = .ok t) :
    t.phase.terminal = true ∨ s.GoesOn t := by
  obtain ⟨v, -, ⟨-, rfl⟩ | ⟨-, d, -, rfl⟩⟩ := stepGate_eq_ok.1 h
  · exact .inl rfl
  · exact .inr ⟨rfl, by simp [State.stepsBeforeEnd, hp, Config.codeLen, Config.tokenStart]⟩

theorem goesOn_of_movesOn {s t : State} {i : InCursor} {o d : OutCursor} (hat : s.AtToken i o d)
    (h : t.MovesOn i) : t.phase.terminal = true ∨ s.GoesOn t := by
  obtain hp | ⟨hp, b, hb, hle, hi⟩ := h
  · exact .inl (by rw [hp]; rfl)
  · have hcode : Config.codeLen = 0x3D00 := rfl
    have hin := hat.inBelow
    refine .inr ⟨busy_of_phase hp rfl, ?_⟩
    rw [stepsBeforeEnd_of_decode hp hi, stepsBeforeEnd_of_decode hat.phase hat.inCur,
      BitVec.toNat_ofNat, Nat.mod_eq_of_lt (by omega)]
    omega

theorem sequencerStep_ends_or_goesOn {s t : State} (h : sequencerStep s = .next t) :
    t.phase.terminal = true ∨ s.GoesOn t := by
  rcases sequencerStep_cases h with ⟨hp, h⟩ | ⟨hp, h⟩ | ⟨hp, h⟩ | ⟨hp, h⟩
  · exact .inr (stepExtract_goesOn hp h)
  · exact stepSplit_ends_or_goesOn hp h
  · exact stepGate_ends_or_goesOn hp h
  · obtain hend | ⟨i, o, d, hat, hmoves⟩ := stepDecode_ends_or_movesOn hp h
    · exact .inl hend
    · exact goesOn_of_movesOn hat hmoves

/-- The sequencer leaves the turns to come as they are. -/
theorem sequencerStep_schedule {s t : State} (h : sequencerStep s = .next t) :
    t.schedule = s.schedule := by
  rcases sequencerStep_cases h with ⟨-, h⟩ | ⟨-, h⟩ | ⟨-, h⟩ | ⟨-, h⟩
  · obtain ⟨w, hh, -, -, -, rfl⟩ := stepExtract_eq_ok.1 h
    rfl
  · obtain ⟨n, -, ⟨-, rfl⟩ | ⟨-, v, -, rfl⟩⟩ := stepSplit_eq_ok.1 h <;> rfl
  · obtain ⟨v, -, ⟨-, rfl⟩ | ⟨-, d, -, rfl⟩⟩ := stepGate_eq_ok.1 h <;> rfl
  · rw [stepDecode_decodeWrites h]

/-- An operation with fewer than `n` steps before its end reaches it within `n`. -/
theorem runSteps_reaches_end {n : Nat} {s : State} (h : s.Inv) (hs : s.schedule = [])
    (hb : s.busy = true) (hn : s.stepsBeforeEnd < n) :
    ∃ k t, k ≤ n ∧ runSteps k s = .next t ∧ t.phase.terminal = true := by
  induction n generalizing s with
  | zero => exact absurd hn (Nat.not_lt_zero _)
  | succ n ih =>
    obtain ⟨u, hu⟩ := sequencerStep_answers h hb
    have hstep : step s = .next u := (step_of_schedule_nil hs).trans hu
    obtain hend | ⟨hbusy, hlt⟩ := sequencerStep_ends_or_goesOn hu
    · exact ⟨1, u, Nat.le_add_left .., runSteps_succ_eq_next.2 ⟨u, hstep, rfl⟩, hend⟩
    · obtain ⟨k, t, hk, hrun, hend⟩ := ih (sequencerStep_inv h hu)
        ((sequencerStep_schedule hu).trans hs) hbusy (by omega)
      exact ⟨k + 1, t, Nat.succ_le_succ hk, runSteps_succ_eq_next.2 ⟨u, hstep, hrun⟩, hend⟩

/-- Settles O48: a busy step always answers, keeps the invariant, and ends the operation or leaves fewer steps before
its end, of which there are fewer than 15,612 at first. -/
theorem operationEndsWithinBound : Obligations.OperationEndsWithinBound := by
  intro s h hs hb
  exact runSteps_reaches_end h hs hb h.stepsBeforeEnd_lt

end Sys2Proof.Machine

/-! PROOFS of the statements about the tokens: what ESC, SYM and BREF emit, when BREF raises, how the cursors advance,
and what a token leaves unchanged. -/

namespace Sys2Proof.Machine

/-! ### The token a DECODE step runs -/

theorem step_eq_exec_of_fetch {s : State} {i : InCursor} {o d : OutCursor} {bytes rest : List Byte}
    {instr : Instr} (hs : s.schedule = []) (hat : s.AtToken i o d)
    (hf : fetchBytes s i.toNat = .ok bytes) (hdec : decode bytes = .ok (instr, rest)) :
    step s = exec instr s :=
  (step_eq_stepDecode hs hat.phase).trans (stepDecode_of_decode hat hf hdec)

/-- The control byte 0x00 runs ESC; alone at the region's end it is the straddle, which is ESC's meaning there too. -/
theorem step_eq_exec_esc {s : State} {i : InCursor} {o d : OutCursor} {v : Byte}
    (hs : s.schedule = []) (hat : s.AtToken i o d) (hc : readCr s i.toNat = .ok 0x00)
    (hv : i.toNat + 1 < Config.codeLen → readCr s (i.toNat + 1) = .ok v) :
    step s = exec (.esc v) s := by
  rcases Nat.lt_or_ge (i.toNat + 1) Config.codeLen with hin | hlast
  · exact step_eq_exec_of_fetch hs hat (fetchBytes_pair hc (hv hin) rfl) (decode_esc rfl v [])
  · rw [step_eq_stepDecode hs hat.phase, exec_esc_of_straddle hat hlast]
    exact stepDecode_of_decode_error hat (fetchBytes_of_no_second_byte hc hlast)
      (decode_of_no_second_byte rfl)

/-- A control byte from 0x01 to 0x3B runs SYM with that byte as the index. -/
theorem step_eq_exec_sym {s : State} {i : InCursor} {o d : OutCursor} {c : Byte} {idx : SymIndex}
    (hs : s.schedule = []) (hat : s.AtToken i o d) (hc : readCr s i.toNat = .ok c)
    (hmin : 0x01 ≤ c.toNat) (hmax : c.toNat ≤ 0x3B) (hidx : idx.toNat = c.toNat) :
    step s = exec (.sym idx) s := by
  have hk : tokenKind c = .sym := tokenKind_sym_iff.2 ⟨hmin, hmax⟩
  obtain rfl : idx = symOperand c :=
    BitVec.eq_of_toNat_eq (hidx.trans (symOperand_toNat hmax).symm)
  exact step_eq_exec_of_fetch hs hat (fetchBytes_single hc hk) (decode_sym hk [])

/-- A control byte from 0x3C on runs BREF with the operands of the pair. -/
theorem step_eq_exec_bref {s : State} {i : InCursor} {o d : OutCursor} {c b : Byte}
    {offset : RefOffset} {length : RefLength} (hs : s.schedule = []) (hat : s.AtToken i o d)
    (hc : readCr s i.toNat = .ok c) (hb : readCr s (i.toNat + 1) = .ok b) (hmin : 0x3C ≤ c.toNat)
    (hoffset : offset.toNat = (c.toNat - 0x3C) * 16 + b.toNat % 16)
    (hlength : length.toNat = b.toNat / 16 + 2) : step s = exec (.bref offset length) s := by
  have hk : tokenKind c = .bref := tokenKind_bref_iff.2 hmin
  obtain rfl : offset = brefOffset c b :=
    BitVec.eq_of_toNat_eq (hoffset.trans (brefOffset_toNat c b).symm)
  obtain rfl : length = brefLength b :=
    BitVec.eq_of_toNat_eq (hlength.trans (brefLength_toNat b).symm)
  exact step_eq_exec_of_fetch hs hat (fetchBytes_pair hc hb (by rw [hk]; rfl)) (decode_bref hk b [])

/-! ### The byte that ESC and SYM emit -/

/-- A position up to the region's end fits into IN_CUR. -/
theorem toNat_ofNat_inCursor {n : Nat} (h : n ≤ Config.codeLen) :
    (BitVec.ofNat 14 n).toNat = n := by
  rw [BitVec.toNat_ofNat, Nat.mod_eq_of_lt (Nat.lt_of_le_of_lt h (by decide))]

theorem read_setOb_same {s : State} (hs : Memory.wf obUnlisted s.ob = true) (a : Nat) (v : Byte) :
    Memory.read obUnlisted (s.setOb a v).ob a = some v := by
  rw [State.setOb_ob, Memory.read_write _ _ hs, if_pos rfl]

theorem read_setOb_ne {s : State} (hs : Memory.wf obUnlisted s.ob = true) {a p : Nat} (v : Byte)
    (h : a ≠ p) : Memory.read obUnlisted (s.setOb p v).ob a = Memory.read obUnlisted s.ob a := by
  rw [State.setOb_ob, Memory.read_write _ _ hs, if_neg h]

/-- The registers and positions after a token of `b` bytes of input that emits the one byte `v`
(44_decompressor_tokens.md R97, R98). -/
theorem next_of_emitted_byte {s : State} {i : InCursor} {o d : OutCursor} {v : Byte} {b : Nat}
    {x : Host.Outcome State Fault Refusal} (hat : s.AtToken i o d)
    (hwf : Memory.wf obUnlisted s.ob = true) (hin : i.toNat + b ≤ Config.codeLen)
    (hx : x = .next (((s.setOb o.toNat v).setOutCur (o.toNat + 1)).setInCur (i.toNat + b))) :
    ∃ (ob : List Host.Cell) (i' : InCursor) (o' : OutCursor),
      x = .next { s with ob := ob, inCur := some i', outCur := some o' } ∧
      i'.toNat = i.toNat + b ∧ o'.toNat = o.toNat + 1 ∧
      Memory.read obUnlisted ob o.toNat = some v ∧
      ∀ a, a ≠ o.toNat → Memory.read obUnlisted ob a = Memory.read obUnlisted s.ob a :=
  ⟨_, _, _, hx, toNat_ofNat_inCursor hin, toNat_ofNat_outCursor hat.outBelow,
    read_setOb_same hwf o.toNat v, fun _ ha => read_setOb_ne hwf v ha⟩

/-- Settles O27: ESC is a straddle at the region's last byte and emits its literal before it. -/
theorem escEmitsLiteral : Obligations.EscEmitsLiteral := by
  intro s i o d v hat hwf
  refine ⟨fun hs hc hv => step_eq_exec_esc hs hat hc hv, ?_⟩
  split
  · next hlast => exact exec_esc_of_straddle hat hlast v
  · next hlast =>
    have hin := not_le.1 hlast
    exact next_of_emitted_byte hat hwf hin (exec_esc_of_inside hat hin v)

/-- Settles O28: SYM emits its entry at any position of the region, for its one byte is the control byte. -/
theorem symEmitsTableEntry : Obligations.SymEmitsTableEntry := by
  intro s i o d idx hat hwf
  refine ⟨fun _ hs hc hmin hmax hidx => step_eq_exec_sym hs hat hc hmin hmax hidx, ?_⟩
  rw [Vector.getElem?_eq_getElem idx.isLt]
  exact next_of_emitted_byte hat hwf hat.inBelow (exec_sym_of_atToken hat idx)

/-- Settles O29: SYM 41 emits entry 41, which the table holds at entry 0 too. -/
theorem duplicateSymbolEmitsEntryZero : Obligations.DuplicateSymbolEmitsEntryZero := by
  intro s i o d hat hwf hdup
  refine ⟨_, exec_sym_of_atToken hat 41, ?_⟩
  rw [hdup]
  exact read_setOb_same hwf o.toNat _

/-! ### The copy of BREF and its guard -/

/-- Settles O30: past the guard BREF copies back, which repeats the bytes before OUT_CUR with its offset as the period. -/
theorem brefCopiesPeriodically : Obligations.BrefCopiesPeriodically := by
  intro s i o d offset length hat hfilled hin hmin hmax
  refine ⟨fun _ _ hs hc hb hk hoffset hlength =>
    step_eq_exec_bref hs hat hc hb hk hoffset hlength, ?_⟩
  have hroom := hat.outBelow
  obtain ⟨ob, hexec, -, hcopied⟩ := execBref_copies length hat hfilled hin hmin hmax
  have hend : o.toNat + min length.toNat (d.toNat - o.toNat) ≤ d.toNat := by omega
  have hout := toNat_ofNat_outCursor hend
  exact ⟨ob, _, _, _, hexec, by split <;> omega, toNat_ofNat_inCursor hin, hout,
    hout.trans_le hend,
    fun k hk => ⟨hcopied.periodic hmin hmax k hk,
      hcopied.read_ne_none hmin hmax hfilled.2 _ (Nat.add_lt_add_left hk _)⟩,
    hcopied.frame⟩

/-- Settles O31: the guard comes before the copy, and the invariant fills OB below OUT_CUR. -/
theorem badOffsetRaisesBadReference : Obligations.BadOffsetRaisesBadReference := by
  intro s i o d offset length hat hin
  split
  · next hbad =>
    rw [← hat.phase, ← hat.inCur, ← hat.outCur]
    exact ⟨_, exec_bref_of_bad_offset hat hin hbad length⟩
  · intro hinv a _ ha
    exact (hinv.read_ob_ne_none_iff hat.phase hat.outCur a).2 ha

/-! ### The cursors after a token -/

/-- What a straddle leaves in the cursors (43_decompressor_control.md R91). -/
theorem straddle_cursors {s : State} {i : InCursor} {o d : OutCursor} (hat : s.AtToken i o d)
    (hlast : Config.codeLen ≤ i.toNat + 1) :
    ∃ (i' : InCursor) (o' : OutCursor), s.straddle.inCur = some i' ∧ s.straddle.outCur = some o' ∧
      i'.toNat = Config.codeLen ∧ i'.toNat = i.toNat + 1 ∧ o' = o :=
  ⟨0x3D00, o, rfl, hat.outCur, rfl, le_antisymm hlast hat.inBelow, rfl⟩

/-- What `b` bytes of input and `n` of output, inside the region and below DLEN, leave in the cursors
(44_decompressor_tokens.md R104). -/
theorem advanced_cursors (u : State) {i : InCursor} {o d : OutCursor} {b n : Nat}
    (hin : i.toNat + b ≤ Config.codeLen) (hn : 1 ≤ n) (hout : o.toNat + n ≤ d.toNat) :
    ∃ (i' : InCursor) (o' : OutCursor),
      ((u.setOutCur (o.toNat + n)).setInCur (i.toNat + b)).inCur = some i' ∧
      ((u.setOutCur (o.toNat + n)).setInCur (i.toNat + b)).outCur = some o' ∧
      i'.toNat = i.toNat + b ∧ o'.toNat = o.toNat + n ∧ o.toNat < o'.toNat ∧ o'.toNat ≤ d.toNat := by
  have ho := toNat_ofNat_outCursor hout
  exact ⟨_, _, rfl, rfl, toNat_ofNat_inCursor hin, ho, by omega, ho.trans_le hout⟩

/-- Settles O33, by the branches of each token: a straddle is the branch whose bytes pass the region's end. -/
theorem tokensAdvanceCursors : Obligations.TokensAdvanceCursors := by
  intro s t i o d instr hat hw h hne
  have hcontext := hat.tokenContext_eq
  have hroom := hat.outBelow
  cases instr with
  | esc v =>
    obtain ⟨c, hc, hcases⟩ := execEsc_cases h
    cases hcontext.symm.trans hc
    rcases hcases with ⟨hst, rfl⟩ | ⟨hst, rfl⟩
    · have hlast := of_decide_eq_true hst
      obtain ⟨i', o', hi', ho', hcursors⟩ := straddle_cursors hat hlast
      exact ⟨i', o', hi', ho', Eq.mpr (if_pos (Nat.lt_succ_of_le hlast)) hcursors⟩
    · have hin : i.toNat + 2 ≤ Config.codeLen := not_le.1 (of_decide_eq_false hst)
      obtain ⟨i', o', hi', ho', hcursors⟩ := advanced_cursors (s.setOb o.toNat v) hin le_rfl hroom
      exact ⟨i', o', hi', ho', Eq.mpr (if_neg hin.not_gt) hcursors⟩
  | sym idx =>
    obtain ⟨c, hc, rfl⟩ := execSym_cases h
    cases hcontext.symm.trans hc
    have hin : i.toNat + 1 ≤ Config.codeLen := hat.inBelow
    obtain ⟨i', o', hi', ho', hcursors⟩ :=
      advanced_cursors (s.setOb o.toNat (readSym s idx)) hin le_rfl hroom
    exact ⟨i', o', hi', ho', Eq.mpr (if_neg hin.not_gt) hcursors⟩
  | bref offset length =>
    obtain ⟨c, hc, hcases⟩ := execBref_cases h
    cases hcontext.symm.trans hc
    rcases hcases with ⟨hst, rfl⟩ | ⟨-, -, rfl⟩ | ⟨hst, -, u, -, rfl⟩
    · have hlast := of_decide_eq_true hst
      obtain ⟨i', o', hi', ho', hcursors⟩ := straddle_cursors hat hlast
      exact ⟨i', o', hi', ho', Eq.mpr (if_pos (Nat.lt_succ_of_le hlast)) hcursors⟩
    · exact absurd rfl hne
    · have hin : i.toNat + 2 ≤ Config.codeLen := not_le.1 (of_decide_eq_false hst)
      obtain ⟨-, hmin, -⟩ := wellFormed_bref_iff.1 hw
      obtain ⟨i', o', hi', ho', hcursors⟩ := advanced_cursors u (i := i) (o := o) (d := d)
        (n := min length.toNat (d.toNat - o.toNat)) hin (by omega) (by omega)
      exact ⟨i', o', hi', ho', Eq.mpr (if_neg hin.not_gt) hcursors⟩

/-! ### The frame of the tokens -/

theorem exec_resultLen {instr : Instr} {s t : State} (h : exec instr s = .next t) :
    t.resultLen = s.resultLen := by
  cases instr with
  | esc v =>
    obtain ⟨c, -, ⟨-, rfl⟩ | ⟨-, rfl⟩⟩ := execEsc_cases h
    · rfl
    · rfl
  | sym idx =>
    obtain ⟨c, -, rfl⟩ := execSym_cases h
    rfl
  | bref offset length =>
    obtain ⟨c, -, ⟨-, rfl⟩ | ⟨-, -, rfl⟩ | ⟨-, -, u, hu, rfl⟩⟩ := execBref_cases h
    · rfl
    · rfl
    · rw [copyBytes_only_ob hu]
      rfl

/-- Settles O34: the fields no DECODE step writes and RESULT_LEN are kept by every token; PHASE, the error and OB are
told by the branches of each token. -/
theorem tokenFrame : Obligations.TokenFrame := by
  intro s t c instr hc hwf h
  have hresult := exec_resultLen h
  have hkept : t.params = s.params ∧ t.gridW = s.gridW ∧ t.gridH = s.gridH ∧ t.pix = s.pix ∧
      t.fbLen = s.fbLen ∧ t.fb = s.fb ∧ t.version = s.version ∧ t.dlen = s.dlen ∧
      t.schedule = s.schedule := by
    rw [exec_decodeWrites h]
    exact ⟨rfl, rfl, rfl, rfl, rfl, rfl, rfl, rfl, rfl⟩
  obtain ⟨hparams, hw, hh, hpix, hlen, hfb, hversion, hdlen, hschedule⟩ := hkept
  refine ⟨hparams, hw, hh, hpix, hlen, hfb, hversion, hdlen, hresult, hschedule, ?_⟩
  cases instr with
  | esc v =>
    obtain ⟨c', hc', hcases⟩ := execEsc_cases h
    cases hc.symm.trans hc'
    rcases hcases with ⟨-, rfl⟩ | ⟨hst, rfl⟩
    · exact ⟨rfl, rfl, rfl, fun _ => rfl, fun _ _ => rfl⟩
    · exact ⟨rfl, rfl, rfl, fun hst' => absurd hst' (by simp [hst]),
        fun _ ha => read_setOb_ne hwf v ha⟩
  | sym idx =>
    obtain ⟨c', hc', rfl⟩ := execSym_cases h
    cases hc.symm.trans hc'
    exact ⟨rfl, rfl, rfl, fun _ ha => read_setOb_ne hwf _ ha⟩
  | bref offset length =>
    obtain ⟨c', hc', hcases⟩ := execBref_cases h
    cases hc.symm.trans hc'
    rcases hcases with ⟨-, rfl⟩ | ⟨hst, hbad, rfl⟩ | ⟨hst, hgood, u, hu, rfl⟩
    · exact ⟨fun _ => ⟨rfl, rfl, rfl⟩, fun _ => ⟨rfl, rfl⟩, fun _ _ => rfl⟩
    · exact ⟨fun hno => absurd hno (by simp [hst, hbad]), fun _ => ⟨rfl, rfl⟩, fun _ _ => rfl⟩
    · refine ⟨fun _ => ?_, fun hno => absurd hno (by simp [hst, hgood]),
        fun _ ha => copyBytes_frame hu hwf ha⟩
      rw [copyBytes_only_ob hu]
      exact ⟨rfl, rfl, rfl⟩

end Sys2Proof.Machine

/-! PROOFS of the statements about the orchestration: that a busy step answers, where no step is enabled, where each stage
leads, and what START begins. -/

namespace Sys2Proof.Machine

/-! ### The phases by their kind -/

theorem Phase.busy_eq_false_iff (p : Phase) :
    p.busy = false ↔ p = .idle ∨ p = .done ∨ p = .truncated ∨ p = .error := by
  cases p <;> decide

theorem Phase.terminal_iff (p : Phase) :
    p.terminal = true ↔ p = .done ∨ p = .truncated ∨ p = .error := by
  cases p <;> decide

/-! ### A busy step never stops -/

/-- Settles O47: with an empty schedule the step is the sequencer's, and with the invariant each stage answers. -/
theorem busyStepNeverStops : Obligations.BusyStepNeverStops := by
  intro s h hs hb
  rw [step_of_schedule_nil hs]
  exact sequencerStep_answers h hb

/-! ### Faults that name no phase -/

/-- The computation never stops with the fault that says no step is enabled: only the sequencer raises that one, in a
phase that is not busy. -/
structure NoPhaseFault {α : Type} (x : Except Fault α) : Prop where
  ne_error : ∀ p, x ≠ .error (.noStepEnabled p)

theorem NoPhaseFault.ok {α : Type} (a : α) : NoPhaseFault (.ok a) := ⟨nofun⟩

theorem NoPhaseFault.bind {α β : Type} {x : Except Fault α} {f : α → Except Fault β}
    (hx : NoPhaseFault x) (hf : ∀ a, NoPhaseFault (f a)) : NoPhaseFault (x >>= f) := by
  cases x with
  | ok a => exact hf a
  | error e =>
    refine ⟨fun p => ?_⟩
    rintro ⟨⟩
    exact hx.ne_error p rfl

theorem NoPhaseFault.ite {α : Type} {c : Prop} [Decidable c] {x y : Except Fault α}
    (hx : NoPhaseFault x) (hy : NoPhaseFault y) : NoPhaseFault (if c then x else y) := by
  split
  · exact hx
  · exact hy

/-- An outcome of such a computation is not the fault that no step is enabled. -/
theorem NoPhaseFault.answer_ne {x : Except Fault State} (hx : NoPhaseFault x) (p : Phase) :
    answer x ≠ .fault (.noStepEnabled p) := by
  cases x with
  | ok s => exact nofun
  | error f =>
    rintro ⟨⟩
    exact hx.ne_error p rfl

theorem readReg_noPhaseFault {α : Type} (n : RegName) (x : Option α) :
    NoPhaseFault (readReg n x) := by
  cases x with
  | some v => exact .ok v
  | none => exact ⟨nofun⟩

theorem readFb_noPhaseFault (s : State) (a : Nat) : NoPhaseFault (readFb s a) := by
  refine (readReg_noPhaseFault ..).bind fun n => .ite ?_ ⟨nofun⟩
  split
  · exact .ok _
  · exact ⟨nofun⟩

theorem readCr_noPhaseFault (s : State) (i : Nat) : NoPhaseFault (readCr s i) :=
  .ite (readFb_noPhaseFault ..) ⟨nofun⟩

theorem readCrPair_noPhaseFault (s : State) (i : Nat) : NoPhaseFault (readCrPair s i) :=
  (readCr_noPhaseFault ..).bind fun _ => (readCr_noPhaseFault ..).bind fun _ => .ok _

theorem readOb_noPhaseFault (s : State) (a : Nat) : NoPhaseFault (readOb s a) := by
  rw [readOb]
  split
  · exact .ok _
  · exact ⟨nofun⟩

theorem writeOb_noPhaseFault (s : State) (a : Nat) (v : Byte) : NoPhaseFault (writeOb s a v) :=
  (readReg_noPhaseFault ..).bind fun _ => .ite (.ok _) ⟨nofun⟩

theorem tokenContext_noPhaseFault (s : State) : NoPhaseFault (tokenContext s) :=
  (readReg_noPhaseFault ..).bind fun _ => (readReg_noPhaseFault ..).bind fun _ =>
    (readReg_noPhaseFault ..).bind fun _ => .ite (.ok _) ⟨nofun⟩

theorem emitByte_noPhaseFault (s : State) (t : TokenContext) (v : Byte) (n : Nat) :
    NoPhaseFault (emitByte s t v n) :=
  (writeOb_noPhaseFault ..).bind fun _ => .ok _

theorem copyBytes_noPhaseFault (n src dst : Nat) (s : State) :
    NoPhaseFault (copyBytes n src dst s) := by
  induction n generalizing src dst s with
  | zero => exact .ok s
  | succ n ih =>
    exact (readOb_noPhaseFault ..).bind fun _ => (writeOb_noPhaseFault ..).bind fun _ => ih ..

/-! ### Where no step is enabled -/

theorem exec_ne_noStepEnabled (i : Instr) (s : State) (p : Phase) :
    exec i s ≠ .fault (.noStepEnabled p) := by
  have hcontext := tokenContext_noPhaseFault s
  cases i with
  | esc v =>
    exact (hcontext.bind fun _ => .ite (.ok _) (emitByte_noPhaseFault ..)).answer_ne p
  | sym idx => exact (hcontext.bind fun _ => emitByte_noPhaseFault ..).answer_ne p
  | bref offset length =>
    exact (hcontext.bind fun _ => .ite (.ok _) (.ite (.ok _)
      ((copyBytes_noPhaseFault ..).bind fun _ => .ok _))).answer_ne p

theorem fetchBytes_noPhaseFault (s : State) (n : Nat) : NoPhaseFault (fetchBytes s n) :=
  (readCr_noPhaseFault ..).bind fun _ =>
    .ite ((readCr_noPhaseFault ..).bind fun _ => .ok _) (.ok _)

theorem loopMove_noPhaseFault (s : State) : NoPhaseFault (loopMove s) := by
  refine (readReg_noPhaseFault ..).bind fun o => (readReg_noPhaseFault ..).bind fun d =>
    (readReg_noPhaseFault ..).bind fun i => .ite (.ok _) (.ite (.ok _)
      ((fetchBytes_noPhaseFault ..).bind fun bytes => ?_))
  split
  · exact .ok _
  · exact .ok _

theorem stepExtract_noPhaseFault (s : State) : NoPhaseFault (stepExtract s) :=
  (readReg_noPhaseFault ..).bind fun _ => (readReg_noPhaseFault ..).bind fun _ =>
    .ite (.ok _) ⟨nofun⟩

theorem stepSplit_noPhaseFault (s : State) : NoPhaseFault (stepSplit s) :=
  (readReg_noPhaseFault ..).bind fun _ =>
    .ite (.ok _) ((readFb_noPhaseFault ..).bind fun _ => .ok _)

theorem stepGate_noPhaseFault (s : State) : NoPhaseFault (stepGate s) :=
  (readReg_noPhaseFault ..).bind fun _ =>
    .ite ((readCrPair_noPhaseFault ..).bind fun _ => .ok _) (.ok _)

theorem stepDecode_ne_noStepEnabled (s : State) (p : Phase) :
    stepDecode s ≠ .fault (.noStepEnabled p) := by
  rw [stepDecode]
  split
  · next f hf =>
    rintro ⟨⟩
    exact (loopMove_noPhaseFault s).ne_error p hf
  · exact nofun
  · exact nofun
  · exact nofun
  · exact exec_ne_noStepEnabled _ s p

theorem sequencerStep_of_not_busy {s : State} (hb : s.busy = false) :
    sequencerStep s = .fault (.noStepEnabled s.phase) := by
  rcases s.phase.busy_eq_false_iff.1 hb with hp | hp | hp | hp <;> rw [sequencerStep, hp]

/-- In a busy phase a step is enabled (45_orchestration.md R107). -/
theorem sequencerStep_ne_noStepEnabled {s : State} (hb : s.busy = true) (p : Phase) :
    sequencerStep s ≠ .fault (.noStepEnabled p) := by
  rw [State.busy] at hb
  cases hp : s.phase with
  | extract =>
    rw [sequencerStep_extract hp]
    exact (stepExtract_noPhaseFault s).answer_ne p
  | split =>
    rw [sequencerStep_split hp]
    exact (stepSplit_noPhaseFault s).answer_ne p
  | gate =>
    rw [sequencerStep_gate hp]
    exact (stepGate_noPhaseFault s).answer_ne p
  | decode =>
    rw [sequencerStep_decode hp]
    exact stepDecode_ne_noStepEnabled s p
  | idle => simp [hp, Phase.busy] at hb
  | done => simp [hp, Phase.busy] at hb
  | truncated => simp [hp, Phase.busy] at hb
  | error => simp [hp, Phase.busy] at hb

/-- Settles O42: outside the busy phases the step names the phase, and inside them no stage stops with that fault. -/
theorem noStepOutsideBusyPhases : Obligations.NoStepOutsideBusyPhases := by
  intro s p hs
  rw [step_of_schedule_nil hs, ← Phase.busy_eq_false_iff]
  constructor
  · intro h
    have hb : s.busy = false :=
      Bool.eq_false_iff.2 fun hb => sequencerStep_ne_noStepEnabled hb p h
    rw [sequencerStep_of_not_busy hb] at h
    cases h
    exact ⟨rfl, hb⟩
  · rintro ⟨rfl, hb⟩
    exact sequencerStep_of_not_busy hb

/-! ### The order of the stages -/

theorem stepExtract_phase {s t : State} (h : stepExtract s = .ok t) : t.phase = .split := by
  obtain ⟨w, hh, -, -, -, rfl⟩ := stepExtract_eq_ok.1 h
  rfl

theorem stepSplit_phase {s t : State} (h : stepSplit s = .ok t) :
    t.phase = .gate ∨ t.phase = .error := by
  obtain ⟨n, -, ⟨-, rfl⟩ | ⟨-, v, -, rfl⟩⟩ := stepSplit_eq_ok.1 h
  · exact .inr rfl
  · exact .inl rfl

theorem stepGate_phase {s t : State} (h : stepGate s = .ok t) :
    t.phase = .decode ∨ t.phase = .error := by
  obtain ⟨v, -, ⟨-, rfl⟩ | ⟨-, d, -, rfl⟩⟩ := stepGate_eq_ok.1 h
  · exact .inr rfl
  · exact .inl rfl

theorem stepDecode_phase {s t : State} (hp : s.phase = .decode) (h : stepDecode s = .next t) :
    t.phase = .decode ∨ t.phase = .done ∨ t.phase = .truncated ∨ t.phase = .error := by
  obtain hend | ⟨_, _, _, -, herr | ⟨hdec, -⟩⟩ := stepDecode_ends_or_movesOn hp h
  · exact .inr (t.phase.terminal_iff.1 hend)
  · exact .inr (.inr (.inr herr))
  · exact .inl hdec

/-- Settles O43, by the phase the step begins in. -/
theorem stageOrder : Obligations.StageOrder := by
  intro s t hs h
  rw [step_of_schedule_nil hs] at h
  rcases sequencerStep_cases h with ⟨hp, h⟩ | ⟨hp, h⟩ | ⟨hp, h⟩ | ⟨hp, h⟩
  · exact .inl ⟨hp, stepExtract_phase h⟩
  · exact .inr (.inl ⟨hp, stepSplit_phase h⟩)
  · exact .inr (.inr (.inl ⟨hp, stepGate_phase h⟩))
  · exact .inr (.inr (.inr ⟨hp, stepDecode_phase hp h⟩))

/-! ### START -/

/-- Settles O40: such a START is accepted, and the begun operation has every field as listed. -/
theorem startBeginsAnOperation : Obligations.StartBeginsAnOperation := by
  intro s w h pix ts hs hp hl
  exact step_start hs (s.phase.busy_eq_false_iff.2 hp) hl

end Sys2Proof.Machine

/-! PROOFS of the statements about the errors: which tokens raise, and that a step raises the four errors of R111's table
only, each by its stage and for its cause. -/

namespace Sys2Proof.Machine

/-! ### What a token raises -/

/-- A token answers in the precondition of the token rules, and leaves the error registers as they are unless it is a
BREF that R100's guard stops. -/
theorem exec_keeps_error_or_raises {s t : State} {instr : Instr} (h : exec instr s = .next t) :
    ∃ i o d, s.AtToken i o d ∧
      ((t.phase = .decode ∧ t.err = s.err ∧ t.errInfo = s.errInfo) ∨
        ∃ offset length, instr = .bref offset length ∧
          (offset.toNat = 0 ∨ offset.toNat > o.toNat) ∧
          t = (s.setInCur (i.toNat + 1)).raise s .badReference (.reference offset length)) := by
  obtain ⟨i, o, d, hat⟩ := atToken_of_exec h
  refine ⟨i, o, d, hat, ?_⟩
  cases instr with
  | esc v =>
    obtain ⟨c, -, ⟨-, rfl⟩ | ⟨-, rfl⟩⟩ := execEsc_cases h
    · exact .inl ⟨hat.phase, rfl, rfl⟩
    · exact .inl ⟨hat.phase, rfl, rfl⟩
  | sym idx =>
    obtain ⟨c, -, rfl⟩ := execSym_cases h
    exact .inl ⟨hat.phase, rfl, rfl⟩
  | bref offset length =>
    obtain ⟨c, hc, hcases⟩ := execBref_cases h
    cases hat.tokenContext_eq.symm.trans hc
    rcases hcases with ⟨-, rfl⟩ | ⟨-, hbad, rfl⟩ | ⟨-, -, u, hu, rfl⟩
    · exact .inl ⟨hat.phase, rfl, rfl⟩
    · exact .inr ⟨offset, length, rfl, of_decide_eq_true hbad, rfl⟩
    · rw [copyBytes_only_ob hu]
      exact .inl ⟨hat.phase, rfl, rfl⟩

/-- Settles O35: of the branches of the three tokens only BREF's guard enters ERROR, with BAD_REFERENCE. -/
theorem onlyBrefRaises : Obligations.OnlyBrefRaises := by
  intro s t instr h
  obtain ⟨i, o, d, -, hkeeps | ⟨offset, length, hbref, -, rfl⟩⟩ := exec_keeps_error_or_raises h
  · exact .inl hkeeps
  · exact .inr ⟨rfl, rfl, offset, length, hbref⟩

/-! ### What a step raises -/

/-- A DECODE step that ends in ERROR ran a BREF with a bad offset, whose bytes it had fetched, or found the input spent
under STRICT (60_exceptions.md R111, rows 3 and 4). -/
theorem stepDecode_raises {s t : State} (h : stepDecode s = .next t) (hp : s.phase = .decode)
    (herror : t.phase = .error) :
    (∃ (i : InCursor) (o d : OutCursor) (c b : Byte), s.AtToken i o d ∧
      readCr s i.toNat = .ok c ∧ readCr s (i.toNat + 1) = .ok b ∧ 0x3C ≤ c.toNat ∧
      ((brefOffset c b).toNat = 0 ∨ (brefOffset c b).toNat > o.toNat) ∧
      t = (s.setInCur (i.toNat + 1)).raise s .badReference
        (.reference (brefOffset c b) (brefLength b))) ∨
    (s.params.strict = true ∧
      (∃ (i : InCursor) (o d : OutCursor), s.inCur = some i ∧ s.outCur = some o ∧
        s.dlen = some d ∧ Config.codeLen ≤ i.toNat ∧ o.toNat < d.toNat) ∧
      t = s.raise s .truncatedInput .noValue) := by
  obtain ⟨m, hm, ⟨-, rfl⟩ | ⟨rfl, rfl⟩ | ⟨-, rfl⟩ | ⟨instr, rfl, hexec⟩⟩ := stepDecode_cases h
  · cases herror
  · obtain ⟨o, d, i, ho, hd, hi, ⟨-, ⟨⟩⟩ | ⟨hout, hspent, -⟩ | ⟨-, -, -, ⟨⟩⟩ |
      ⟨-, -, _, _, -, -, ⟨⟩⟩⟩ := loopMove_cases hm
    rcases exhaust_cases s with ⟨hstrict, heq⟩ | ⟨-, heq⟩
    · exact .inr ⟨hstrict, ⟨i, o, d, hi, ho, hd, hspent, hout⟩, heq⟩
    · rw [heq] at herror
      cases herror
  · cases hp.symm.trans herror
  · obtain ⟨i, o, d, hat, ⟨hdecode, -⟩ | ⟨offset, length, rfl, hbad, rfl⟩⟩ :=
      exec_keeps_error_or_raises hexec
    · cases hdecode.symm.trans herror
    · obtain ⟨i', c, b, hi, hc, hb, hmin, rfl, rfl⟩ := loopMove_bref hm
      cases hat.inCur.symm.trans hi
      exact .inl ⟨i, o, d, c, b, hat, hc, hb, hmin, hbad, rfl⟩

/-- Settles O38: EXTRACT raises nothing, and each branch of SPLIT, GATE and DECODE that enters ERROR is a row of R111's
table, an error entry that writes nothing else but IN_CUR. -/
theorem stepRaisesOnlyTabledErrors : Obligations.StepRaisesOnlyTabledErrors := by
  intro s t hs h herror
  rw [step_of_schedule_nil hs] at h
  rcases sequencerStep_cases h with ⟨-, h⟩ | ⟨hp, h⟩ | ⟨hp, h⟩ | ⟨hp, h⟩
  · cases (stepExtract_phase h).symm.trans herror
  · obtain ⟨n, hn, ⟨hshort, rfl⟩ | ⟨-, v, -, rfl⟩⟩ := stepSplit_eq_ok.1 h
    · exact ⟨⟨_, rfl, .inl ⟨hp, rfl, rfl, n, hn, hshort, rfl⟩⟩, rfl, rfl, rfl, rfl, rfl, rfl, rfl⟩
    · cases herror
  · obtain ⟨v, hv, ⟨hbad, rfl⟩ | ⟨-, d, -, rfl⟩⟩ := stepGate_eq_ok.1 h
    · obtain ⟨hone, hfive⟩ := not_or.1 (mem_versionsOk_iff.not.1 hbad)
      exact ⟨⟨_, rfl, .inr (.inl ⟨hp, rfl, rfl, v, hv, hone, hfive, rfl⟩)⟩,
        rfl, rfl, rfl, rfl, rfl, rfl, rfl⟩
    · cases herror
  · rcases stepDecode_raises h hp herror with
      ⟨i, o, d, c, b, hat, hc, hb, hmin, hbad, rfl⟩ |
      ⟨hstrict, ⟨i, o, d, hi, ho, hd, hspent, hout⟩, rfl⟩
    · exact ⟨⟨_, rfl, .inr (.inr (.inl ⟨hp, rfl, rfl, i, o, d, c, b, hat, hc, hb, hmin, hbad, rfl⟩))⟩,
        rfl, rfl, rfl, rfl, rfl, rfl, rfl⟩
    · exact ⟨⟨_, rfl, .inr (.inr (.inr
          ⟨hp, rfl, rfl, hstrict, i, o, d, hi, ho, hd, hspent, hout, rfl⟩))⟩,
        rfl, rfl, rfl, rfl, rfl, rfl, rfl⟩

end Sys2Proof.Machine

/-! PROOFS of the statements about a new instance, and about a START given to a busy block. -/

namespace Sys2Proof.Machine

/-! ### A new instance -/

/-- RESET keeps the configuration and the turns to come and nothing else, so it takes every instance of the reset state's
configuration to the reset state (70_reset_and_hazards.md R128). -/
theorem hostReset_eq_reset {s : State} (hp : s.params = State.reset.params)
    (hs : s.schedule = State.reset.schedule) : hostReset s = State.reset := by
  rw [hostReset, hp, hs]

/-- Settles O1: the rows of the reset table are fields of `State.reset`, and RESET leaves that very state. -/
theorem newInstanceIsInResetState : Obligations.NewInstanceIsInResetState := by
  refine ⟨rfl, rfl, rfl, rfl, rfl, rfl, rfl, rfl, rfl, rfl, rfl, fun _ => rfl, rfl, ?_⟩
  intro s hp hs
  rw [hostReset_eq_reset hp hs]

/-! ### START while busy -/

theorem Phase.busy_iff (p : Phase) :
    p.busy = true ↔ p = .extract ∨ p = .split ∨ p = .gate ∨ p = .decode := by
  cases p <;> decide

/-- A busy block refuses START before it looks at the list (70_reset_and_hazards.md R136). -/
theorem step_start_of_busy {s : State} {w h : Nat} {pix : List Pixel} {ts : List Turn}
    (hs : s.schedule = .host (.start w h pix) :: ts) (hb : s.busy = true) :
    step s = .refused .startWhileBusy := by
  rw [step_of_schedule_host hs]
  exact if_pos hb

/-- Settles O41: the four phases are the busy ones. -/
theorem startWhileBusyIsRefused : Obligations.StartWhileBusyIsRefused := by
  intro s w h pix ts hs hp
  exact step_start_of_busy hs (s.phase.busy_iff.2 hp)

end Sys2Proof.Machine
